-- ==== Sys2Proof/Word.lean ====
section
/-! DEFINITION. The word types of the core: bytes, datapath words, the length accumulator, and the two port words
(00_scope.md R8 to R11; 30_encoding.md R70, R80). -/

namespace Sys2Proof

/-- A stream byte, `u8` (R11). -/
abbrev Byte := BitVec 8

/-- A datapath word, `u32` (R8 WORD, R11). -/
abbrev Word := BitVec 32

/-- The length accumulator's type, `u64` (R8 LEN_BITS); also the type of a response's data (R82). -/
abbrev DWord := BitVec 64

/-- A command word `cw[39:0]` (R70). -/
abbrev CmdWord := BitVec 40

/-- A response word `rsp[67:0]` (R80). -/
abbrev RspWord := BitVec 68

end Sys2Proof
end

