-- ==== Sys2Proof/Syntax.lean ====
section
/-! DEFINITION. The commands of the core: one constructor for each row of spec/opcode_table.json (30_encoding.md R75;
41_commands.md R145 says there is no other), and the reasons for which a word is no command (R77). -/

namespace Sys2Proof

/-- The eight commands (41_commands.md R145). A byte operand `d<i>` is the stream byte `d[i]` of R74, `d0` the
earliest. -/
inductive Instr where
  /-- NEW, the source's `new(seed)` (R132). -/
  | new (seed : Word)
  /-- WRITE of no byte (R136). -/
  | write0
  /-- WRITE of one byte (R137). -/
  | write1 (d0 : Byte)
  /-- WRITE of two bytes (R138). -/
  | write2 (d0 d1 : Byte)
  /-- WRITE of three bytes (R139). -/
  | write3 (d0 d1 d2 : Byte)
  /-- WRITE of four bytes (R140). -/
  | write4 (d0 d1 d2 d3 : Byte)
  /-- FINISH, the source's `finish()` (R141). -/
  | finish
  /-- RESET, the source's `reset()` (R133); not the hardware reset. -/
  | reset
deriving DecidableEq, Repr

/-- Why a 40-bit word is illegal: the six classes of R77, by name. The hardware reports none of them; a word that falls
under several carries the first that the decoder meets (log entry 7). -/
inductive IllegalReason where
  /-- R77 item 2: `rsv = 1`. -/
  | reservedBit
  /-- R77 item 1: `op = 0` or `op = 5` to `15`. -/
  | reservedOpcode
  /-- R77 item 3: NEW, FINISH or RESET with `n ≠ 0`. -/
  | countNotZero
  /-- R77 item 4: WRITE with `n = 5, 6, 7`. -/
  | countTooLarge
  /-- R77 item 5: WRITE with a bit set in an unused lane. -/
  | unusedLane
  /-- R77 item 6: FINISH or RESET with `payload ≠ 0`. -/
  | payloadNotZero
deriving DecidableEq, Repr

end Sys2Proof
end

