-- ==== Sys2Proof/Decode.lean ====
section
/-! DEFINITION. The decoder of 30_encoding.md R76, total on 40-bit words and rejecting by name; the encoder, written
from the columns of R75; the opcode map of R75 as a list of rows; and the host's numbering of a word. -/

namespace Sys2Proof

/-- `op = cw[39:36]` (R71). -/
def opField (cw : CmdWord) : BitVec 4 := cw.extractLsb' 36 4

/-- `rsv = cw[35]` (R72). -/
def rsvField (cw : CmdWord) : BitVec 1 := cw.extractLsb' 35 1

/-- `n = cw[34:32]` (R73). -/
def countField (cw : CmdWord) : BitVec 3 := cw.extractLsb' 32 3

/-- `payload = cw[31:0]` (R74). -/
def payloadField (cw : CmdWord) : Word := cw.extractLsb' 0 32

/-- Lane `i` of a payload, `payload[8i+7:8i]`: stream byte `i` of the beat (R74, 20_memory.md R54). -/
def lane (p : Word) (i : Nat) : Byte := p.extractLsb' (8 * i) 8

/-- The WRITE form whose bytes are the first `n` lanes of the payload, `n ≤ 4` (R76). -/
def writeOfLanes (n : Nat) (p : Word) : Instr :=
  match n with
  | 0 => .write0
  | 1 => .write1 (lane p 0)
  | 2 => .write2 (lane p 0) (lane p 1)
  | 3 => .write3 (lane p 0) (lane p 1) (lane p 2)
  | _ => .write4 (lane p 0) (lane p 1) (lane p 2) (lane p 3)

/-- R76 for `op = 2`: a count above 4 and a bit in an unused lane are illegal. -/
def decodeWrite (n : Nat) (p : Word) : Except IllegalReason Instr :=
  if 4 < n then .error .countTooLarge
  else if p >>> (8 * n) ≠ 0 then .error .unusedLane
  else .ok (writeOfLanes n p)

/-- R76 for FINISH and RESET: the count and the payload must be 0. -/
def decodeBare (i : Instr) (n : BitVec 3) (p : Word) : Except IllegalReason Instr :=
  if n ≠ 0 then .error .countNotZero
  else if p ≠ 0 then .error .payloadNotZero
  else .ok i

/-- R76 for `op = 1`: the count must be 0, every payload is a seed. -/
def decodeNew (n : BitVec 3) (p : Word) : Except IllegalReason Instr :=
  if n ≠ 0 then .error .countNotZero else .ok (.new p)

/-- `decode` of R76. It depends on the word alone (R78). -/
def decode (cw : CmdWord) : Except IllegalReason Instr :=
  if rsvField cw = 1 then .error .reservedBit
  else if opField cw = 1 then decodeNew (countField cw) (payloadField cw)
  else if opField cw = 2 then decodeWrite (countField cw).toNat (payloadField cw)
  else if opField cw = 3 then decodeBare .finish (countField cw) (payloadField cw)
  else if opField cw = 4 then decodeBare .reset (countField cw) (payloadField cw)
  else .error .reservedOpcode

/-- The payload whose lanes are these bytes, lane 3 in the high bits (the last four columns of R75). -/
def lanes (d0 d1 d2 d3 : Byte) : Word := d3 ++ d2 ++ d1 ++ d0

/-- The one encoding of each command (R76), from the columns of R75: the 8-bit header `op ‖ rsv ‖ n`, then the payload,
its unused lanes 0. -/
def encode : Instr → CmdWord
  | .new seed => 0x10#8 ++ seed
  | .write0 => 0x20#8 ++ lanes 0 0 0 0
  | .write1 d0 => 0x21#8 ++ lanes d0 0 0 0
  | .write2 d0 d1 => 0x22#8 ++ lanes d0 d1 0 0
  | .write3 d0 d1 d2 => 0x23#8 ++ lanes d0 d1 d2 0
  | .write4 d0 d1 d2 d3 => 0x24#8 ++ lanes d0 d1 d2 d3
  | .finish => 0x30#8 ++ 0#32
  | .reset => 0x40#8 ++ 0#32

/-- One row of the opcode map. -/
structure OpcodeRow where
  mnemonic : String
  pattern : CmdWord
  mask : CmdWord
deriving DecidableEq, Repr

/-- The opcode map of R75: "A word is the named command exactly when `(cw AND mask) = match`". -/
def opcodeMap : List OpcodeRow :=
  [ ⟨"NEW", 0x1000000000, 0xFF00000000⟩,
    ⟨"WRITE0", 0x2000000000, 0xFFFFFFFFFF⟩,
    ⟨"WRITE1", 0x2100000000, 0xFFFFFFFF00⟩,
    ⟨"WRITE2", 0x2200000000, 0xFFFFFF0000⟩,
    ⟨"WRITE3", 0x2300000000, 0xFFFF000000⟩,
    ⟨"WRITE4", 0x2400000000, 0xFF00000000⟩,
    ⟨"FINISH", 0x3000000000, 0xFFFFFFFFFF⟩,
    ⟨"RESET", 0x4000000000, 0xFFFFFFFFFF⟩ ]

/-- Whether a word falls under a row of the opcode map (R75). -/
def rowCovers (r : OpcodeRow) (cw : CmdWord) : Bool := cw &&& r.mask == r.pattern

/-- The mnemonic of a command's row (R75). -/
def mnemonicOf : Instr → String
  | .new _ => "NEW"
  | .write0 => "WRITE0"
  | .write1 _ => "WRITE1"
  | .write2 _ _ => "WRITE2"
  | .write3 _ _ _ => "WRITE3"
  | .write4 _ _ _ _ => "WRITE4"
  | .finish => "FINISH"
  | .reset => "RESET"

/-- The word of a table row in the host's numbering: the low `nbits` bits of `w`, every higher bit 0. The core has one
command length, 40 bits, and a command word is a numeric value: no byte order enters (20_memory.md R54). -/
def tableWord (nbits w : Nat) : CmdWord := BitVec.ofNat 40 (w % 2 ^ nbits)

/-- What the decoder reads from the word of a table row. A number with a bit above 39 is no command word. -/
def decodeTableWord (nbits w : Nat) : Option Instr :=
  if w % 2 ^ nbits < 2 ^ 40 then (decode (tableWord nbits w)).toOption else none

end Sys2Proof
end

