-- ==== Sys2Proof/Machine/Datapath.lean ====
section
/-! DEFINITION. The datapath functions of 40_datapath.md and the constants of 00_scope.md R8: pure total functions on
unsigned 32-bit words, every operation wrapping (R12, R115). -/

namespace Sys2Proof.Machine

/-- C1 (R8): first multiplier of the block scramble. -/
def mulC1 : Word := 0xCC9E2D51

/-- C2 (R8): second multiplier of the block scramble. -/
def mulC2 : Word := 0x1B873593

/-- R1 (R8): rotate amount inside the block scramble. -/
def rotR1 : Nat := 15

/-- R2 (R8): rotate amount of the post-mix. -/
def rotR2 : Nat := 13

/-- M (R8): multiplier of the post-mix. -/
def postM : Word := 5

/-- N (R8): addend of the post-mix. -/
def postN : Word := 0xE6546B64

/-- F1 (R8): first multiplier of the avalanche. -/
def mulF1 : Word := 0x85EBCA6B

/-- F2 (R8): second multiplier of the avalanche. -/
def mulF2 : Word := 0xC2B2AE35

/-- S1 (R8): first right shift of the avalanche. -/
def shiftS1 : Nat := 16

/-- S2 (R8): second right shift of the avalanche. -/
def shiftS2 : Nat := 13

/-- S3 (R8): third right shift of the avalanche. -/
def shiftS3 : Nat := 16

/-- `le32` (R100): little-endian assembly, `b0` the earliest byte in bits 7:0. -/
def le32 (b0 b1 b2 b3 : Byte) : Word :=
  b0.zeroExtend 32 ||| b1.zeroExtend 32 <<< 8 ||| b2.zeroExtend 32 <<< 16 ||| b3.zeroExtend 32 <<< 24

/-- `le32(B)` on a byte sequence of length 4 (R100). -/
def le32Seq (B : List Byte) : Word := le32 (B.getD 0 0) (B.getD 1 0) (B.getD 2 0) (B.getD 3 0)

/-- `rotl32` (R101), total by `r mod 32` (log entry 6); the core rotates by 15 and 13 only. -/
def rotl32 (x : Word) (r : Nat) : Word := x <<< (r % 32) ||| x >>> (32 - r % 32)

/-- `mul32` (R102): the low 32 bits of the product. Of the two operands "one is always a constant" (R102); the calls
below write the constant first, which is the same product (so is the sum of `postMix`); a constant in second place would
be counted down to zero by a kernel that unfolds it. -/
def mul32 (a b : Word) : Word := a * b

/-- `scramble` (R104), steps 1 to 3 of mix_block. -/
def scramble (w : Word) : Word := mul32 mulC2 (rotl32 (mul32 mulC1 w) rotR1)

/-- `mix_block` (R106): XOR of the scrambled word into the hash; no post-mix. -/
def mixBlock (hash w : Word) : Word := hash ^^^ scramble w

/-- `post_mix` (R107): rotate, multiply by M, add N. -/
def postMix (h : Word) : Word := postN + mul32 postM (rotl32 h rotR2)

/-- `block_round` (R108): what one complete block does to the running hash. -/
def blockRound (hash w : Word) : Word := postMix (mixBlock hash w)

/-- The words of the complete blocks of a byte sequence, in stream order (20_memory.md R51, R53). Bytes after the last
complete block are in no block. -/
def blockWords : List Byte → List Word
  | b0 :: b1 :: b2 :: b3 :: rest => le32 b0 b1 b2 b3 :: blockWords rest
  | _ => []

/-- `absorb` (R113): the block round folded over the blocks of a byte sequence, in stream order. R113's domain is the
sequences whose length is a multiple of 4. -/
def absorb (h : Word) (B : List Byte) : Word := (blockWords B).foldl blockRound h

/-- The tail buffer `T` of R109: four zero bytes, the carry bytes copied into the low positions (20_memory.md R58). -/
def tailBuffer (carry : List Byte) : List Byte := (carry ++ [0, 0, 0, 0]).take 4

/-- `tail_word` (R109). -/
def tailWord (carry : List Byte) : Word := le32Seq (tailBuffer carry)

/-- `tail_fold` (R110): always evaluated, also on an empty carry; no post-mix. -/
def tailFold (h : Word) (carry : List Byte) : Word := mixBlock h (tailWord carry)

/-- `h XOR (h >> s)`, the shift logical (R103, R111). -/
def xorShift (h : Word) (s : Nat) : Word := h ^^^ h >>> s

/-- `fmix32` (R111), the avalanche. -/
def fmix32 (h : Word) : Word :=
  xorShift (mul32 mulF2 (xorShift (mul32 mulF1 (xorShift h shiftS1)) shiftS2)) shiftS3

/-- `finalize32` (R112): tail fold, XOR with the low 32 bits of the length, avalanche. -/
def finalize32 (hash : Word) (len : DWord) (carry : List Byte) : Word :=
  fmix32 (tailFold hash carry ^^^ len.truncate 32)

end Sys2Proof.Machine
end

