-- ==== Sys2Proof/Config.lean ====
section
/-! DEFINITION. What the spec leaves open for the whole machine: the values a hardware reset leaves in the registers
(free values, applied to the number of hardware resets the run has seen) and the open latency parameter. None has a
body, so nothing can be proved of any of them. -/

namespace Sys2Proof.Config

/-- FREE VALUE (log entry 4): `hash` after the n-th hardware reset of a run; "unspecified" (10_state.md R34). -/
opaque unspecifiedHash : Nat → Word

/-- FREE VALUE (log entry 4): `len` after the n-th hardware reset of a run; "unspecified" (10_state.md R34). -/
opaque unspecifiedLen : Nat → DWord

/-- FREE VALUE (log entry 4): the bytes of `carry` after the n-th hardware reset of a run; "unspecified" (10_state.md
R34). The register keeps at most three of them, since `clen` has only the values 0 to 3 (R20). -/
opaque unspecifiedCarry : Nat → List Byte

/-- FREE VALUE (log entry 4): `seed` after the n-th hardware reset of a run; "unspecified" (10_state.md R34). -/
opaque unspecifiedSeed : Nat → Word

/-- The open parameter LAT, cycles from a command's acceptance to its response (00_scope.md R9): "a parameter no rule
reads", and no definition of this model reads it (log entry 8). -/
opaque lat : Nat

end Sys2Proof.Config
end

