-- ==== Sys2Proof/Machine/State.lean ====
section
/-! DEFINITION. The state of the core (10_state.md R20 to R25), the host's side of its two channels (30_encoding.md
R83), the reasons a step can stop, and the machine right after reset (R34). -/

namespace Sys2Proof.Machine

/-- The three status codes a response can carry (30_encoding.md R81; codes 3 to 15 are never produced). -/
inductive Status where
  /-- 0 `OK`: the command completed. -/
  | ok
  /-- 1 `ILLEGAL_COMMAND`: the fault IllegalCommand (60_exceptions.md R181). -/
  | illegalCommand
  /-- 2 `NOT_INITIALISED`: the fault NotInitialised (60_exceptions.md R182). -/
  | notInitialised
deriving DecidableEq, Repr

/-- One response, `respond(code, data)` (00_scope.md R17). -/
structure Response where
  status : Status
  data : DWord
deriving DecidableEq, Repr

/-- The two faults of the core (60_exceptions.md R180). Both are TAKEN: the core answers with the fault's status and
goes on (R183), so neither stops the machine. -/
inductive CommandFault where
  /-- R181: the word matches no row of the opcode map. -/
  | illegalCommand
  /-- R182: a command other than NEW while `init = 0`. -/
  | notInitialised
deriving DecidableEq, Repr

/-- What the host does to the core, one event at a time (30_encoding.md R83; 70_reset_and_hazards.md R200; log entry
1). -/
inductive HostEvent where
  /-- The command channel accepts this word. -/
  | command (cw : CmdWord)
  /-- The host takes the oldest response that waits on the response channel. -/
  | takeResponse
  /-- The reset input goes low and comes back. -/
  | hardwareReset
deriving DecidableEq, Repr

/-- The state of the core. `clen` is the length of `carry` and is not stored again (R23: a model "keeps no separate
`clen`"); see `State.clen`. The last four fields are the model's own: the host's side of the two channels and the
counter of the free values. -/
structure State where
  /-- `hash`, the running hash (R21). -/
  hash : Word
  /-- `len`, bytes accepted since NEW or RESET, modulo 2^64 (R22, R27). -/
  len : DWord
  /-- `carry`, the bytes of the incomplete block, oldest first (R23). -/
  carry : List Byte
  /-- `seed`, kept for RESET (R24). -/
  seed : Word
  /-- `init`: a NEW has executed since hardware reset (R25). -/
  init : Bool
  /-- The model's own: what the host does next, oldest first (R83). -/
  events : List HostEvent
  /-- The model's own: responses produced and not yet delivered, oldest first (R83). -/
  responses : List Response
  /-- The model's own: responses the host has taken, oldest first (R83). -/
  delivered : List Response
  /-- The model's own: how many hardware resets this run has seen; the free values are applied to it (log entry 4). -/
  resets : Nat
deriving DecidableEq, Repr

/-- Why the machine stops with a fault: nothing makes it stop. The core's two faults are taken and answered
(`CommandFault`; 60_exceptions.md R183), and nothing else faults (R180), so this type has no member. That is neither a
safe nor an unsafe difference: the spec gives every step an effect. -/
inductive Fault where
deriving DecidableEq, Repr

/-- Why a step is refused. -/
inductive Refusal where
  /-- Raised by an arm of `exec` whose command has no meaning yet; safe (the machine stops where the hardware goes
  on). No arm raises it: every command has its meaning. -/
  | notModelled (mnemonic : String)
deriving DecidableEq, Repr

/-- The machine right after hardware reset (R34): `init` is 0, nothing waits on either channel. The spec leaves `hash`,
`len`, `carry` and `seed` unspecified; the values here are the model's (DESIGN CHOICE, log entry 3), and no statement
rests on them. -/
def State.reset : State :=
  { hash := 0, len := 0, carry := [], seed := 0, init := false,
    events := [], responses := [], delivered := [], resets := 0 }

end Sys2Proof.Machine
end

