-- ==== Sys2Proof/Machine/Operands.lean ====
section
/-! DEFINITION. The operand forms of the commands (30_encoding.md R74), the byte routing of a beat (41_commands.md
R143) and the layout of a response word (30_encoding.md R80 to R82). -/

namespace Sys2Proof.Machine

/-- `clen`, the number of carry bytes (10_state.md R20, R23): a view of `carry`, its only home. -/
abbrev State.clen (s : State) : Nat := s.carry.length

/-- The bytes a command hands to the stream, in stream order (R74 (b)); only WRITE has any. -/
def beatBytes : Instr → List Byte
  | .new _ => []
  | .write0 => []
  | .write1 d0 => [d0]
  | .write2 d0 d1 => [d0, d1]
  | .write3 d0 d1 d2 => [d0, d1, d2]
  | .write4 d0 d1 d2 d3 => [d0, d1, d2, d3]
  | .finish => []
  | .reset => []

/-- Whether a command is a form of WRITE (R75). -/
def isWrite : Instr → Bool
  | .new _ => false
  | .write0 => true
  | .write1 _ => true
  | .write2 _ _ => true
  | .write3 _ _ _ => true
  | .write4 _ _ _ _ => true
  | .finish => false
  | .reset => false

/-- Whether a command is NEW, the one command the `init` check spares (41_commands.md R131). -/
def isNew : Instr → Bool
  | .new _ => true
  | .write0 => false
  | .write1 _ => false
  | .write2 _ _ => false
  | .write3 _ _ _ => false
  | .write4 _ _ _ _ => false
  | .finish => false
  | .reset => false

/-- The working buffer `D = carry ‖ d` of a beat (R135, R143). -/
def workingBuffer (carry d : List Byte) : List Byte := carry ++ d

/-- The block word of a beat that completes a block: `D[0..4]` with `D[j]` in bits `8j+7:8j` (R143). -/
def blockWord (D : List Byte) : Word := le32Seq (D.take 4)

/-- The 4-bit code of a status (R81). -/
def statusCode : Status → BitVec 4
  | .ok => 0
  | .illegalCommand => 1
  | .notInitialised => 2

/-- The 68-bit response word, `code ‖ data` (R80). -/
def responseWord (r : Response) : RspWord := statusCode r.status ++ r.data

/-- `data` of a fault's response: the offending command word, zero-extended (R82). -/
def faultData (cw : CmdWord) : DWord := cw.zeroExtend 64

/-- `data` of FINISH: the 32-bit hash, zero-extended (R82). -/
def hashData (h : Word) : DWord := h.zeroExtend 64

/-- The status a fault answers with (60_exceptions.md R180). -/
def faultStatus : CommandFault → Status
  | .illegalCommand => .illegalCommand
  | .notInitialised => .notInitialised

end Sys2Proof.Machine
end

