-- ==== Sys2Proof/Machine/Flags.lean ====
section
/-! DEFINITION. The only flag is `init` (10_state.md R25, R31): the check it drives (41_commands.md R131), and the
sequencer's one control decision (R142). -/

namespace Sys2Proof.Machine

/-- `fire = (clen + n ≥ 4)`: whether a beat completes a block (R142). -/
def fires (clen n : Nat) : Bool := 4 ≤ clen + n

/-- The `init` check (R131): whether this command faults NotInitialised in this state. NEW is never subject to it. -/
def failsInitCheck (i : Instr) (s : State) : Bool := !isNew i && !s.init

end Sys2Proof.Machine
end

