-- ==== Sys2Proof/Machine/Ops.lean ====
section
/-! DEFINITION. The named operations the meanings and the step share: responding, taking a fault, the `init` check,
starting a context, appending a beat, and what the host's events do to the core. -/

namespace Sys2Proof.Machine

/-- `respond(code, data)` (00_scope.md R17): the response joins the response channel, after those that wait there
(20_memory.md R60). -/
def respond (status : Status) (data : DWord) (s : State) : State :=
  { s with responses := s.responses ++ [⟨status, data⟩] }

/-- TAKING A FAULT (60_exceptions.md R183): no register is written; one response with the fault's code and the offending
word. Nothing is saved, no mode changes, control goes nowhere, and there is no return (R185): the core accepts the next
command. -/
def raiseFault (f : CommandFault) (cw : CmdWord) (s : State) : State :=
  respond (faultStatus f) (faultData cw) s

/-- Performing a legal command (41_commands.md R130): the `init` check, then its effect. The offending word is the
command's one encoding (30_encoding.md R76). -/
def perform (i : Instr) (effect : State → State) (s : State) : Host.Outcome State Fault Refusal :=
  if failsInitCheck i s then .next (raiseFault .notInitialised (encode i) s) else .next (effect s)

/-- The state of a context just constructed with a seed: `hash`, `len`, `carry` as NEW and RESET leave them
(10_state.md R34). -/
def startStream (seed : Word) (s : State) : State := { s with hash := seed, len := 0, carry := [] }

/-- One beat of WRITE (41_commands.md R135): the block round where a block completes, the new carry, the length. -/
def appendBeat (d : List Byte) (s : State) : State :=
  { s with
    hash := if fires s.clen d.length then blockRound s.hash (blockWord (workingBuffer s.carry d)) else s.hash
    carry := if fires s.clen d.length then (workingBuffer s.carry d).drop 4 else workingBuffer s.carry d
    len := s.len + BitVec.ofNat 64 d.length }

/-- A WRITE command with the bytes `d`: append them, respond `(OK, 0)` (R135, 30_encoding.md R82). -/
def writeBeat (d : List Byte) (s : State) : State := respond .ok 0 (appendBeat d s)

/-- The value FINISH answers with: `finalize32` of the registers as they stand (41_commands.md R141). -/
def finalHash (s : State) : Word := finalize32 s.hash s.len s.carry

/-- The host takes a response: the oldest one that waits is delivered (30_encoding.md R83, 20_memory.md R60); if none
waits, no transfer happens and nothing changes. -/
def deliverResponse (s : State) : State :=
  match s.responses with
  | [] => s
  | r :: rest => { s with responses := rest, delivered := s.delivered ++ [r] }

/-- Hardware reset (70_reset_and_hazards.md R200): `init` is cleared, the other registers hold free values (log entry
4), a response not yet delivered is dropped. -/
def hardwareReset (s : State) : State :=
  { s with
    init := false
    hash := Config.unspecifiedHash s.resets
    len := Config.unspecifiedLen s.resets
    carry := (Config.unspecifiedCarry s.resets).take 3
    seed := Config.unspecifiedSeed s.resets
    responses := []
    resets := s.resets + 1 }

end Sys2Proof.Machine
end

