-- ==== Sys2Proof/Machine/Context.lean ====
section
/-! DEFINITION. NEW and RESET (41_commands.md R132, R133). -/

namespace Sys2Proof.Machine

/-- NEW (R132): a fresh context with the operand's seed, from any state; never NotInitialised. -/
def execNew (seed : Word) (s : State) : Host.Outcome State Fault Refusal :=
  perform (.new seed) (fun s => respond .ok 0 { startStream seed s with seed := seed, init := true }) s

/-- RESET (R133): the state NEW produced, with the original seed; `seed` and `init` unchanged. -/
def execReset (s : State) : Host.Outcome State Fault Refusal :=
  perform .reset (fun s => respond .ok 0 (startStream s.seed s)) s

end Sys2Proof.Machine
end

