-- ==== Sys2Proof/Machine/Finish.lean ====
section
/-! DEFINITION. FINISH (41_commands.md R141). -/

namespace Sys2Proof.Machine

/-- FINISH (R141): responds with the finalized hash, zero-extended; no register is written. -/
def execFinish (s : State) : Host.Outcome State Fault Refusal :=
  perform .finish (fun s => respond .ok (hashData (finalHash s)) s) s

end Sys2Proof.Machine
end

