-- ==== Sys2Proof/Machine/Write.lean ====
section
/-! DEFINITION. The five forms of WRITE (41_commands.md R135 to R140). -/

namespace Sys2Proof.Machine

/-- WRITE0 (R136): the empty write; its only effect on an initialised core is its response. -/
def execWrite0 (s : State) : Host.Outcome State Fault Refusal :=
  perform .write0 (writeBeat []) s

/-- WRITE1 (R137). -/
def execWrite1 (d0 : Byte) (s : State) : Host.Outcome State Fault Refusal :=
  perform (.write1 d0) (writeBeat [d0]) s

/-- WRITE2 (R138). -/
def execWrite2 (d0 d1 : Byte) (s : State) : Host.Outcome State Fault Refusal :=
  perform (.write2 d0 d1) (writeBeat [d0, d1]) s

/-- WRITE3 (R139). -/
def execWrite3 (d0 d1 d2 : Byte) (s : State) : Host.Outcome State Fault Refusal :=
  perform (.write3 d0 d1 d2) (writeBeat [d0, d1, d2]) s

/-- WRITE4 (R140). -/
def execWrite4 (d0 d1 d2 d3 : Byte) (s : State) : Host.Outcome State Fault Refusal :=
  perform (.write4 d0 d1 d2 d3) (writeBeat [d0, d1, d2, d3]) s

end Sys2Proof.Machine
end

