-- ==== Sys2Proof/Machine/Dispatch.lean ====
section
/-! DEFINITION. One arm per command: the call of its meaning. -/

namespace Sys2Proof.Machine

/-- The meaning of a legal command (41_commands.md R130, R145). -/
def exec (i : Instr) (s : State) : Host.Outcome State Fault Refusal :=
  match i with
  | .new seed => Sys2Proof.Machine.execNew seed s
  | .write0 => Sys2Proof.Machine.execWrite0 s
  | .write1 d0 => Sys2Proof.Machine.execWrite1 d0 s
  | .write2 d0 d1 => Sys2Proof.Machine.execWrite2 d0 d1 s
  | .write3 d0 d1 d2 => Sys2Proof.Machine.execWrite3 d0 d1 d2 s
  | .write4 d0 d1 d2 d3 => Sys2Proof.Machine.execWrite4 d0 d1 d2 d3 s
  | .finish => Sys2Proof.Machine.execFinish s
  | .reset => Sys2Proof.Machine.execReset s

end Sys2Proof.Machine
end

