-- ==== Sys2Proof/Machine/Step.lean ====
section
/-! DEFINITION. One step: the next thing the host does (30_encoding.md R83; 41_commands.md R130; log entry 1), and the
host's way to place one command word. -/

namespace Sys2Proof.Machine

/-- One step of the core. With no event the state stays as it is: "the state does not change between commands"
(10_state.md R36). A command word is decoded and, if illegal, answered by the fault IllegalCommand; otherwise it runs
(R130). -/
def step (s : State) : Host.Outcome State Fault Refusal :=
  match s.events with
  | [] => .next s
  | .takeResponse :: rest => .next (deliverResponse { s with events := rest })
  | .hardwareReset :: rest => .next (hardwareReset { s with events := rest })
  | .command cw :: rest =>
    match decode cw with
    | .error _ => .next (raiseFault .illegalCommand cw { s with events := rest })
    | .ok i => exec i { s with events := rest }

/-- The host's placing of one word: the next event is this command, before whatever the host does later (log entry
2). -/
def State.withFetchWord (s : State) (nbits w : Nat) : State :=
  { s with events := .command (tableWord nbits w) :: s.events }

end Sys2Proof.Machine
end

