-- ==== Sys2Proof/Machine/Pseudo.lean ====
section
/-! DEFINITION. What is built from the commands: sequences of them, the write of any length (41_commands.md R134), its
expansion WRITEN (42_pseudo_and_laws.md R160), the one-shot HASHB (R162), and the reference function `hash_bytes`
(R163). -/

namespace Sys2Proof.Machine

/-- Performing commands in order, each completely before the next (20_memory.md R60). -/
def execAll : List Instr → State → Host.Outcome State Fault Refusal
  | [], s => .next s
  | i :: is, s =>
    match exec i s with
    | .next t => execAll is t
    | .fault r => .fault r
    | .refused r => .refused r

/-- The events of a host that issues these commands, as words, in order (30_encoding.md R83). -/
def commandEvents (is : List Instr) : List HostEvent := is.map fun i => .command (encode i)

/-- The WRITE form that carries a beat's bytes, told apart by their number (30_encoding.md R75, R84); more than four
bytes are no beat (20_memory.md R56). -/
def beatInstr : List Byte → Option Instr
  | [] => some .write0
  | [d0] => some (.write1 d0)
  | [d0, d1] => some (.write2 d0 d1)
  | [d0, d1, d2] => some (.write3 d0 d1 d2)
  | [d0, d1, d2, d3] => some (.write4 d0 d1 d2 d3)
  | _ => none

/-- WRITEN (R160), the canonical expansion: one WRITE4 for each four bytes, then one WRITE of the rest if any is left;
no command at all for the empty sequence. -/
def writeN : List Byte → List Instr
  | d0 :: d1 :: d2 :: d3 :: rest => .write4 d0 d1 d2 d3 :: writeN rest
  | [d0, d1, d2] => [.write3 d0 d1 d2]
  | [d0, d1] => [.write2 d0 d1]
  | [d0] => [.write1 d0]
  | [] => []

/-- HASHB (R162): NEW, WRITEN, FINISH. -/
def hashB (seed : Word) (B : List Byte) : List Instr := .new seed :: writeN B ++ [.finish]

/-- What the host keeps of HASHB's last response, `r[31:0]` (R162). -/
def hashBResult (r : Response) : Word := r.data.truncate 32

/-- How many bytes of a sequence its complete blocks hold: `4 * (L / 4)` (R134 step 2, R163). -/
def fullBytes (L : Nat) : Nat := 4 * (L / 4)

/-- The source's `write(bytes)` for any length, on the registers (R134). -/
def writeBytes (B : List Byte) (s : State) : State :=
  { s with
    hash := absorb s.hash ((workingBuffer s.carry B).take (fullBytes (workingBuffer s.carry B).length))
    carry := (workingBuffer s.carry B).drop (fullBytes (workingBuffer s.carry B).length)
    len := s.len + BitVec.ofNat 64 B.length }

/-- `hash_bytes` (R163): the hash of a whole byte sequence. -/
def hashBytes (B : List Byte) (seed : Word) : Word :=
  finalize32 (absorb seed (B.take (fullBytes B.length))) (BitVec.ofNat 64 B.length) (B.drop (fullBytes B.length))

end Sys2Proof.Machine
end

