-- ==== Sys2Proof/Machine/Assembler.lean ====
section
/-! DEFINITION. The listing notation of the spec (30_encoding.md R84, R85): one line of a listing, what it stands for,
and how its text is read. Log entry 10 names what R84 and R85 leave open in the text. -/

namespace Sys2Proof.Machine

/-- One line of a listing: the syntax of R84 and the two pseudo-instructions of R85. -/
inductive AsmLine where
  | new (seed : Word)
  | write (d : List Byte)
  | finish
  | reset
  | writeN (bytes : List Byte)
  | hashB (seed : Word) (bytes : List Byte)
deriving DecidableEq, Repr

/-- The commands a line stands for; `WRITE` selects its form by the number of bytes and takes at most four (R84). -/
def assemble : AsmLine → Option (List Instr)
  | .new seed => some [.new seed]
  | .write d => (beatInstr d).map fun i => [i]
  | .finish => some [.finish]
  | .reset => some [.reset]
  | .writeN bytes => some (Sys2Proof.Machine.writeN bytes)
  | .hashB seed bytes => some (Sys2Proof.Machine.hashB seed bytes)

/-- The command words of a line (R84). -/
def assembleWords (l : AsmLine) : Option (List CmdWord) := (assemble l).map fun is => is.map encode

/-- A hexadecimal digit; either letter case (log entry 10). -/
def hexDigit (c : Char) : Option Nat :=
  if 0x30 ≤ c.toNat ∧ c.toNat ≤ 0x39 then some (c.toNat - 0x30)
  else if 0x41 ≤ c.toNat ∧ c.toNat ≤ 0x46 then some (c.toNat - 0x41 + 10)
  else if 0x61 ≤ c.toNat ∧ c.toNat ≤ 0x66 then some (c.toNat - 0x61 + 10)
  else none

/-- The number a sequence of hexadecimal digits writes, the first digit the most significant, after a prefix worth
`acc`. -/
def hexNumber (acc : Nat) : List Char → Option Nat
  | [] => some acc
  | c :: cs => (hexDigit c).bind fun d => hexNumber (16 * acc + d) cs

/-- A byte of a listing: "two hexadecimal digits without prefix" (R84). -/
def readByte (t : List Char) : Option Byte :=
  if t.length = 2 then (hexNumber 0 t).map (BitVec.ofNat 8) else none

/-- A seed of a listing: `0xSSSSSSSS`, eight digits (R84). -/
def readSeed : List Char → Option Word
  | '0' :: 'x' :: ds => if ds.length = 8 then (hexNumber 0 ds).map (BitVec.ofNat 32) else none
  | _ => none

/-- The byte of a letter of a string, `a` to `h` being `0x61` to `0x68` (R85). -/
def letterByte (c : Char) : Option Byte :=
  if 'a'.toNat ≤ c.toNat ∧ c.toNat ≤ 'h'.toNat then some (BitVec.ofNat 8 (0x61 + (c.toNat - 'a'.toNat))) else none

/-- The rest of a double-quoted string: its letters up to the closing quote, after which nothing may stand (R85). -/
def readLetters : List Char → Option (List Byte)
  | [] => none
  | '"' :: rest => if rest = [] then some [] else none
  | c :: cs => (letterByte c).bind fun b => (readLetters cs).map fun bs => b :: bs

/-- A line cut at its spaces; two spaces enclose an empty piece. -/
def cutAtSpaces : List Char → List (List Char)
  | [] => [[]]
  | c :: cs =>
    match cutAtSpaces cs with
    | [] => [[]]
    | w :: ws => if c = ' ' then [] :: w :: ws else (c :: w) :: ws

/-- The words of a line: its non-empty pieces between spaces. -/
def lineWords (l : List Char) : List (List Char) := (cutAtSpaces l).filter fun w => w ≠ []

/-- `<bytes>` of R85: a double-quoted string, or a list of two-digit bytes. -/
def readBytes : List (List Char) → Option (List Byte)
  | [('"' :: letters)] => readLetters letters
  | ws => ws.mapM readByte

/-- A seed with the comma of `HASHB 0xSSSSSSSS, <bytes>` after it (R85). -/
def readSeedComma (t : List Char) : Option Word :=
  if t.getLast? = some ',' then readSeed t.dropLast else none

/-- Reading one line of a listing (R84, R85); none where the text is no line of that syntax. -/
def readLine (l : List Char) : Option AsmLine :=
  match lineWords l with
  | [['N', 'E', 'W'], seed] => (readSeed seed).map .new
  | ['W', 'R', 'I', 'T', 'E'] :: bytes =>
    (bytes.mapM readByte).bind fun d => if d.length ≤ 4 then some (.write d) else none
  | [['F', 'I', 'N', 'I', 'S', 'H']] => some .finish
  | [['R', 'E', 'S', 'E', 'T']] => some .reset
  | ['W', 'R', 'I', 'T', 'E', 'N'] :: bytes => (readBytes bytes).map .writeN
  | ['H', 'A', 'S', 'H', 'B'] :: seed :: bytes =>
    (readSeedComma seed).bind fun s => (readBytes bytes).map fun B => .hashB s B
  | _ => none

end Sys2Proof.Machine
end

