-- ==== Sys2Proof/Safety.lean ====
section
/-! DEFINITION. What statements about runs are said in: the invariants of 10_state.md R26, the ghost stream of R28,
and the relations between two runs that may differ only in what no response reveals (R35, R201). -/

namespace Sys2Proof.Machine

/-- The invariants of R26 that speak of the registers alone: item 1 (which holds also while `init = 0`, `clen` being a
2-bit register, R20) and item 5 (while `init = 1`). -/
structure CarryInvariant (s : State) : Prop where
  clen_le_three : s.clen ≤ 3
  clen_eq_len_mod_four : s.init = true → s.clen = s.len.toNat % 4

/-- R28: with the ghost value `stream`, the registers of an initialised core are a function of `seed` and `stream`. -/
structure Represents (s : State) (stream : List Byte) : Prop where
  initialised : s.init = true
  hash_eq : s.hash = absorb s.seed (stream.take (fullBytes stream.length))
  carry_eq : s.carry = stream.drop (fullBytes stream.length)
  len_eq : s.len = BitVec.ofNat 64 stream.length

/-- The ghost stream after a command that completed (R28): emptied by NEW and RESET, extended by WRITE. -/
def streamAfterCommand (i : Instr) (stream : List Byte) : List Byte :=
  match i with
  | .new _ => []
  | .write0 => stream
  | .write1 d0 => stream ++ [d0]
  | .write2 d0 d1 => stream ++ [d0, d1]
  | .write3 d0 d1 d2 => stream ++ [d0, d1, d2]
  | .write4 d0 d1 d2 d3 => stream ++ [d0, d1, d2, d3]
  | .finish => stream
  | .reset => []

/-- The ghost stream after one step from `s` (R28): an illegal word and an event that is no command leave it. -/
def streamAfterStep (s : State) (stream : List Byte) : List Byte :=
  match s.events with
  | .command cw :: _ =>
    match decode cw with
    | .ok i => streamAfterCommand i stream
    | .error _ => stream
  | _ => stream

/-- The six registers agree (R20). -/
structure SameRegisters (s t : State) : Prop where
  hash_eq : s.hash = t.hash
  len_eq : s.len = t.len
  carry_eq : s.carry = t.carry
  seed_eq : s.seed = t.seed
  init_eq : s.init = t.init

/-- Everything the host can see or does agrees: the events to come and both sides of the response channel (R83). -/
structure SameChannels (s t : State) : Prop where
  events_eq : s.events = t.events
  responses_eq : s.responses = t.responses
  delivered_eq : s.delivered = t.delivered

/-- Two cores that may differ only in registers that hold no value (R34): same channels, same `init`, and the same
registers once a NEW has executed. -/
structure SameButUnspecified (s t : State) : Prop where
  channels : SameChannels s t
  init_eq : s.init = t.init
  registers : s.init = true → SameRegisters s t

/-- Two cores that may differ only in `len[63:32]` (R35). -/
structure SameButLenHigh (s t : State) : Prop where
  channels : SameChannels s t
  hash_eq : s.hash = t.hash
  carry_eq : s.carry = t.carry
  seed_eq : s.seed = t.seed
  init_eq : s.init = t.init
  len_low_eq : s.len.truncate 32 = t.len.truncate 32
  resets_eq : s.resets = t.resets

/-- A run in which every command completed: a host that checks this has hashed what it meant (R208). -/
def AllOk (rs : List Response) : Prop := ∀ r ∈ rs, r.status = .ok

end Sys2Proof.Machine
end

