-- ==== Sys2Proof/WellFormed.lean ====
section
/-! DEFINITION. Which command words are well formed, written from the field rules R71 to R74 and apart from the decoder
(an obligation says the two agree). A term of `Instr` needs no check of its own: every seed is legal (R132) and every
byte value is legal in a valid lane (R74), so the operands' types admit exactly what the encoding admits. -/

namespace Sys2Proof.CommandWord

/-- R71: the opcode selects a command, 1 NEW, 2 WRITE, 3 FINISH, 4 RESET. -/
def opcodeLegal (cw : CmdWord) : Bool := 1 ≤ cw.toNat / 2 ^ 36 ∧ cw.toNat / 2 ^ 36 ≤ 4

/-- R72: `rsv = cw[35]` is 0. -/
def reservedClear (cw : CmdWord) : Bool := cw.toNat / 2 ^ 35 % 2 = 0

/-- R73: the count is at most 4 for WRITE and 0 for every other command. -/
def countLegal (cw : CmdWord) : Bool :=
  if cw.toNat / 2 ^ 36 = 2 then cw.toNat / 2 ^ 32 % 8 ≤ 4 else cw.toNat / 2 ^ 32 % 8 = 0

/-- R74 (b): the lanes `i ≥ n` of a WRITE, that is `payload[31:8n]`, are 0. -/
def unusedLanesClear (cw : CmdWord) : Bool :=
  if cw.toNat / 2 ^ 36 = 2 then cw.toNat % 2 ^ 32 / 2 ^ (8 * (cw.toNat / 2 ^ 32 % 8)) = 0 else true

/-- R74 (c): the payload of FINISH and RESET is 0. -/
def payloadClear (cw : CmdWord) : Bool :=
  if cw.toNat / 2 ^ 36 = 3 ∨ cw.toNat / 2 ^ 36 = 4 then cw.toNat % 2 ^ 32 = 0 else true

/-- A word is a legal command word when every field check holds (R70 to R74). -/
def wellFormed (cw : CmdWord) : Bool :=
  opcodeLegal cw && reservedClear cw && countLegal cw && unusedLanesClear cw && payloadClear cw

end Sys2Proof.CommandWord
end

