-- ==== Sys2Proof/Certificates/Slice0/Obligations.lean ====
section
/-! DEFINITION. The statements for the provers, from the numbered rules of spec/. -/

open Sys2Proof Sys2Proof.Machine

/-! ## The step and the host's events -/

/-- R34, the `init` row: `init` is 0 after hardware reset; and nothing waits on either channel (R200). The other
registers' reset values are the model's choice (log entry 3) and are not stated. -/
def Obligations.ResetLeavesCoreUninitialised : Prop :=
  State.reset.init = false ∧ State.reset.events = [] ∧ State.reset.responses = [] ∧ State.reset.delivered = []

/-- R130: an accepted word that decodes runs the command it decodes to, once, and the step adds only that the event is
consumed. -/
def Obligations.StepRunsTheDecodedCommand : Prop :=
  ∀ (s : State) (cw : CmdWord) (rest : List HostEvent) (i : Instr),
    s.events = .command cw :: rest → decode cw = .ok i → step s = exec i { s with events := rest }

/-- R181: an illegal word, whatever the state, is answered by code 1 with the word in `data[39:0]` and zeros above,
and nothing else changes (R183). -/
def Obligations.IllegalWordIsAnsweredWithCodeOne : Prop :=
  ∀ (s : State) (cw : CmdWord) (rest : List HostEvent) (reason : IllegalReason),
    s.events = .command cw :: rest → decode cw = .error reason →
      ∃ r : Response,
        step s = .next { s with events := rest, responses := s.responses ++ [r] } ∧
        r.status = .illegalCommand ∧
        (responseWord r).extractLsb' 64 4 = 1#4 ∧
        (responseWord r).extractLsb' 0 40 = cw ∧
        (responseWord r).extractLsb' 40 24 = 0#24

/-- R131 and R182: while `init = 0` every legal command but NEW is answered by code 2 with its word, and nothing else
changes; NEW completes; while `init = 1` no command is answered by code 2, and no step but a hardware reset leaves
`init = 1`. -/
def Obligations.UninitialisedCommandsAreAnsweredWithCodeTwo : Prop :=
  (∀ (s : State) (cw : CmdWord) (rest : List HostEvent) (i : Instr),
    s.events = .command cw :: rest → decode cw = .ok i → isNew i = false → s.init = false →
      ∃ r : Response,
        step s = .next { s with events := rest, responses := s.responses ++ [r] } ∧
        r.status = .notInitialised ∧
        (responseWord r).extractLsb' 64 4 = 2#4 ∧
        (responseWord r).extractLsb' 0 40 = cw ∧
        (responseWord r).extractLsb' 40 24 = 0#24) ∧
  (∀ (s : State) (cw : CmdWord) (rest : List HostEvent) (seed : Word),
    s.events = .command cw :: rest → decode cw = .ok (.new seed) →
      ∃ t, step s = .next t ∧ t.init = true ∧ t.responses = s.responses ++ [⟨.ok, 0⟩]) ∧
  (∀ (s : State) (cw : CmdWord) (rest : List HostEvent),
    s.events = .command cw :: rest → s.init = true →
      ∃ t r, step s = .next t ∧ t.init = true ∧ t.responses = s.responses ++ [r] ∧ r.status ≠ .notInitialised) ∧
  (∀ s : State, s.init = true → (∀ rest, s.events ≠ .hardwareReset :: rest) → ∃ t, step s = .next t ∧ t.init = true)

/-- R17, R130, R210: every step answers a next state, and each accepted command produces exactly one response at once,
behind those that wait. -/
def Obligations.EveryCommandGetsExactlyOneResponse : Prop :=
  (∀ s : State, ∃ t, step s = .next t) ∧
  (∀ (s : State) (cw : CmdWord) (rest : List HostEvent),
    s.events = .command cw :: rest →
      ∃ t r, step s = .next t ∧ t.events = rest ∧ t.responses = s.responses ++ [r] ∧
        t.delivered = s.delivered ∧ t.resets = s.resets)

/-- R60: commands execute in the order they were accepted, each in the state the earlier ones left, and the responses
stand in that order, one for each. -/
def Obligations.ResponsesFollowTheCommandOrder : Prop :=
  ∀ (ws : List CmdWord) (rest : List HostEvent) (s : State),
    s.events = ws.map HostEvent.command ++ rest →
      ∃ t rs, core.run ws.length s = .next t ∧ t.events = rest ∧ t.delivered = s.delivered ∧
        rs.length = ws.length ∧ t.responses = s.responses ++ rs ∧
        ∀ (k : Nat) (r : Response), rs[k]? = some r →
          ∃ u v, core.run k s = .next u ∧ step u = .next v ∧ v.responses = u.responses ++ [r]

/-- R36: between commands the state does not change. -/
def Obligations.NothingChangesWithoutAnEvent : Prop :=
  ∀ s : State, s.events = [] → step s = .next s

/-- R83, R60: a response the host takes is the oldest that waits; with none waiting no transfer happens. -/
def Obligations.OldestResponseIsDelivered : Prop :=
  ∀ (s : State) (rest : List HostEvent), s.events = .takeResponse :: rest →
    (∀ r rs, s.responses = r :: rs →
      step s = .next { s with events := rest, responses := rs, delivered := s.delivered ++ [r] }) ∧
    (s.responses = [] → step s = .next { s with events := rest })

/-- R200: a hardware reset clears `init` and drops every undelivered response; what was delivered stays delivered, and
`clen` is still at most 3 (R20). What the other registers hold is not stated: it is a free value. -/
def Obligations.HardwareResetForgetsTheContext : Prop :=
  ∀ (s : State) (rest : List HostEvent), s.events = .hardwareReset :: rest →
    ∃ t, step s = .next t ∧ t.init = false ∧ t.responses = [] ∧ t.events = rest ∧ t.delivered = s.delivered ∧
      t.clen ≤ 3

/-- R200, R202, R203: after a hardware reset a command other than NEW is answered NotInitialised, and NEW starts a
context. -/
def Obligations.AfterHardwareResetOnlyNewCompletes : Prop :=
  ∀ (s : State) (cw : CmdWord) (rest : List HostEvent) (i : Instr),
    s.events = .hardwareReset :: .command cw :: rest → decode cw = .ok i →
      ∃ t, core.run 2 s = .next t ∧ t.events = rest ∧
        (isNew i = false → t.init = false ∧ t.responses = [⟨.notInitialised, cw.zeroExtend 64⟩]) ∧
        (∀ seed, i = .new seed →
          t.init = true ∧ t.hash = seed ∧ t.len = 0 ∧ t.carry = [] ∧ t.seed = seed ∧ t.responses = [⟨.ok, 0⟩])

/-! ## Encoding -/

/-- Words written out from the rows of R75, and the commands they stand for. -/
def Obligations.SampleWordsDecode : Prop :=
  decode 0x10000004D2 = .ok (.new 0x000004D2) ∧
  decode 0x2000000000 = .ok .write0 ∧
  decode 0x2100000061 = .ok (.write1 0x61) ∧
  decode 0x2200006261 = .ok (.write2 0x61 0x62) ∧
  decode 0x2300636261 = .ok (.write3 0x61 0x62 0x63) ∧
  decode 0x2464636261 = .ok (.write4 0x61 0x62 0x63 0x64) ∧
  decode 0x3000000000 = .ok .finish ∧
  decode 0x4000000000 = .ok .reset

/-- R76: `decode(encode(c)) = c` for every command, every operand at every value. -/
def Obligations.DecodeOfEncodeIsTheCommand : Prop :=
  ∀ i : Instr, decode (encode i) = .ok i

/-- R76: `encode(decode(cw)) = cw` for every legal word: every command has exactly one encoding. -/
def Obligations.EncodeOfDecodeIsTheWord : Prop :=
  ∀ (cw : CmdWord) (i : Instr), decode cw = .ok i → encode i = cw

/-- R76, the numbers that `encode` is given by. -/
def Obligations.EncodingsAreTheNumbersOfTheSpec : Prop :=
  (∀ seed : Word, encode (.new seed) = 0x1000000000#40 ||| seed.zeroExtend 40) ∧
  encode .write0 = 0x2000000000#40 ∧
  (∀ d0 : Byte, encode (.write1 d0) = 0x2000000000#40 ||| 1#40 <<< 32 ||| d0.zeroExtend 40) ∧
  (∀ d0 d1 : Byte, encode (.write2 d0 d1) =
    0x2000000000#40 ||| 2#40 <<< 32 ||| d0.zeroExtend 40 ||| d1.zeroExtend 40 <<< 8) ∧
  (∀ d0 d1 d2 : Byte, encode (.write3 d0 d1 d2) =
    0x2000000000#40 ||| 3#40 <<< 32 ||| d0.zeroExtend 40 ||| d1.zeroExtend 40 <<< 8 ||| d2.zeroExtend 40 <<< 16) ∧
  (∀ d0 d1 d2 d3 : Byte, encode (.write4 d0 d1 d2 d3) =
    0x2000000000#40 ||| 4#40 <<< 32 ||| d0.zeroExtend 40 ||| d1.zeroExtend 40 <<< 8 ||| d2.zeroExtend 40 <<< 16 |||
      d3.zeroExtend 40 <<< 24) ∧
  encode .finish = 0x3000000000#40 ∧
  encode .reset = 0x4000000000#40

/-- R75: the eight patterns are pairwise disjoint, and a word is the command of the one row that covers it, illegal
when none does. -/
def Obligations.OpcodeMapDecidesTheCommand : Prop :=
  ∀ cw : CmdWord,
    (∀ i, decode cw = .ok i →
      (opcodeMap.filter fun r => rowCovers r cw).map OpcodeRow.mnemonic = [mnemonicOf i]) ∧
    (∀ reason, decode cw = .error reason → (opcodeMap.filter fun r => rowCovers r cw) = [])

/-- R77: the words no row covers are exactly the six classes, and executing one changes no register and is answered by
status 1. -/
def Obligations.IllegalWordsAreTheSixClasses : Prop :=
  ∀ cw : CmdWord,
    ((opcodeMap.filter fun r => rowCovers r cw) = [] ↔
      (cw.toNat / 2 ^ 36 = 0 ∨ 5 ≤ cw.toNat / 2 ^ 36) ∨
      cw.toNat / 2 ^ 35 % 2 = 1 ∨
      ((cw.toNat / 2 ^ 36 = 1 ∨ cw.toNat / 2 ^ 36 = 3 ∨ cw.toNat / 2 ^ 36 = 4) ∧ cw.toNat / 2 ^ 32 % 8 ≠ 0) ∨
      (cw.toNat / 2 ^ 36 = 2 ∧ 5 ≤ cw.toNat / 2 ^ 32 % 8) ∨
      (cw.toNat / 2 ^ 36 = 2 ∧ cw.toNat / 2 ^ 32 % 8 ≤ 3 ∧
        cw.toNat % 2 ^ 32 / 2 ^ (8 * (cw.toNat / 2 ^ 32 % 8)) ≠ 0) ∨
      ((cw.toNat / 2 ^ 36 = 3 ∨ cw.toNat / 2 ^ 36 = 4) ∧ cw.toNat % 2 ^ 32 ≠ 0)) ∧
    ((opcodeMap.filter fun r => rowCovers r cw) = [] →
      ∀ (s : State) (rest : List HostEvent), s.events = .command cw :: rest →
        step s = .next { s with events := rest, responses := s.responses ++ [⟨.illegalCommand, cw.zeroExtend 64⟩] })

/-- R70 to R74: the words whose fields are well formed are exactly the words that decode. -/
def Obligations.WellFormedWordsAreTheLegalWords : Prop :=
  ∀ cw : CmdWord, CommandWord.wellFormed cw = true ↔ ∃ i, decode cw = .ok i

/-- R80, R81: `code` in bits 67:64, `data` in bits 63:0; the codes are 0, 1, 2. -/
def Obligations.ResponseWordLayout : Prop :=
  (∀ r : Response, (responseWord r).extractLsb' 0 64 = r.data) ∧
  (∀ data : DWord, (responseWord ⟨.ok, data⟩).extractLsb' 64 4 = 0#4) ∧
  (∀ data : DWord, (responseWord ⟨.illegalCommand, data⟩).extractLsb' 64 4 = 1#4) ∧
  (∀ data : DWord, (responseWord ⟨.notInitialised, data⟩).extractLsb' 64 4 = 2#4)

/-- R84: the words of the listing syntax. -/
def Obligations.AssemblerWordsAreTheSpecs : Prop :=
  (∀ S : Word, assembleWords (.new S) = some [0x1000000000#40 ||| S.zeroExtend 40]) ∧
  assembleWords (.write []) = some [0x2000000000#40] ∧
  (∀ B0 : Byte, assembleWords (.write [B0]) = some [0x2100000000#40 ||| B0.zeroExtend 40]) ∧
  (∀ B0 B1 : Byte, assembleWords (.write [B0, B1]) =
    some [0x2200000000#40 ||| B0.zeroExtend 40 ||| B1.zeroExtend 40 <<< 8]) ∧
  (∀ B0 B1 B2 : Byte, assembleWords (.write [B0, B1, B2]) =
    some [0x2300000000#40 ||| B0.zeroExtend 40 ||| B1.zeroExtend 40 <<< 8 ||| B2.zeroExtend 40 <<< 16]) ∧
  (∀ B0 B1 B2 B3 : Byte, assembleWords (.write [B0, B1, B2, B3]) =
    some [0x2400000000#40 ||| B0.zeroExtend 40 ||| B1.zeroExtend 40 <<< 8 ||| B2.zeroExtend 40 <<< 16 |||
      B3.zeroExtend 40 <<< 24]) ∧
  assembleWords .finish = some [0x3000000000#40] ∧
  assembleWords .reset = some [0x4000000000#40]

/-! ## The datapath -/

/-- R100: `b0` in bits 7:0 up to `b3` in bits 31:24; a bijection between 4-byte sequences and words. -/
def Obligations.LittleEndianAssemblyIsABijection : Prop :=
  (∀ b0 b1 b2 b3 : Byte,
    (le32 b0 b1 b2 b3).extractLsb' 0 8 = b0 ∧ (le32 b0 b1 b2 b3).extractLsb' 8 8 = b1 ∧
    (le32 b0 b1 b2 b3).extractLsb' 16 8 = b2 ∧ (le32 b0 b1 b2 b3).extractLsb' 24 8 = b3) ∧
  (∀ w : Word, ∃ b0 b1 b2 b3 : Byte, le32 b0 b1 b2 b3 = w)

/-- R101: for amounts 1 to 31, bit `i` moves to bit `(i + r) mod 32`. -/
def Obligations.RotateMovesEveryBit : Prop :=
  ∀ (x : Word) (r i : Nat), 1 ≤ r → r ≤ 31 → i < 32 →
    (rotl32 x r).getLsbD ((i + r) % 32) = x.getLsbD i

/-- R108: the block round written out with the constants of R8. -/
def Obligations.BlockRoundWrittenOut : Prop :=
  ∀ hash w : Word,
    blockRound hash w =
      (let k := rotl32 (w * 0xCC9E2D51#32) 15 * 0x1B873593#32
       let h := hash ^^^ k
       rotl32 h 13 * 5#32 + 0xE6546B64#32)

/-- R104, R107, R108, R111, in the parts the spec derives: scramble, post-mix and avalanche are bijections, and the
block round is one in the hash and in the word. -/
def Obligations.MixingFunctionsAreBijections : Prop :=
  Function.Bijective scramble ∧ Function.Bijective postMix ∧ Function.Bijective fmix32 ∧
  (∀ w : Word, Function.Bijective fun hash => blockRound hash w) ∧
  (∀ hash : Word, Function.Bijective fun w => blockRound hash w)

/-- R109: the tail word of each carry length; bits 31:24 are always 0. -/
def Obligations.TailWordIsZeroFilled : Prop :=
  tailWord [] = 0 ∧
  (∀ a : Byte, tailWord [a] = a.zeroExtend 32) ∧
  (∀ a b : Byte, tailWord [a, b] = a.zeroExtend 32 ||| b.zeroExtend 32 <<< 8) ∧
  (∀ a b c : Byte, tailWord [a, b, c] = a.zeroExtend 32 ||| b.zeroExtend 32 <<< 8 ||| c.zeroExtend 32 <<< 16) ∧
  (∀ carry : List Byte, carry.length ≤ 3 → (tailWord carry).extractLsb' 24 8 = 0#8)

/-- R110, R171: on an empty carry the tail fold is the identity, so running it always and skipping it then give the
same hash. -/
def Obligations.TailFoldOfNothingIsTheIdentity : Prop :=
  (∀ h : Word, tailFold h [] = h) ∧
  (∀ (h : Word) (len : DWord) (carry : List Byte),
    finalize32 h len carry = fmix32 ((if carry = [] then h else tailFold h carry) ^^^ len.truncate 32))

/-! ## The commands -/

/-- R132: NEW from any state; its word; the malformed words of its opcode are illegal. -/
def Obligations.NewStartsAContext : Prop :=
  (∀ (s : State) (seed : Word),
    exec (.new seed) s =
      .next { s with hash := seed, len := 0, carry := [], seed := seed, init := true,
                     responses := s.responses ++ [⟨.ok, 0⟩] }) ∧
  (∀ seed : Word, encode (.new seed) = 0x1000000000#40 ||| seed.zeroExtend 40) ∧
  (∀ cw : CmdWord, cw.toNat / 2 ^ 36 = 1 → (cw.toNat / 2 ^ 35 % 2 = 1 ∨ cw.toNat / 2 ^ 32 % 8 ≠ 0) →
    ∃ reason, decode cw = .error reason)

/-- R133: RESET on an initialised core, and that its state is the one NEW with the kept seed would leave, register for
register; directly after NEW or another RESET it changes no register; NotInitialised before NEW; its one word. -/
def Obligations.ResetRestoresTheContext : Prop :=
  (∀ s : State, s.init = true →
    exec .reset s =
      .next { s with hash := s.seed, len := 0, carry := [], responses := s.responses ++ [⟨.ok, 0⟩] } ∧
    exec .reset s = exec (.new s.seed) s) ∧
  (∀ (s : State) (seed : Word),
    ∃ t u, exec (.new seed) s = .next t ∧ exec .reset t = .next u ∧ SameRegisters t u) ∧
  (∀ s : State, s.init = true → ∃ t u, exec .reset s = .next t ∧ exec .reset t = .next u ∧ SameRegisters t u) ∧
  (∀ s : State, s.init = false →
    exec .reset s = .next { s with responses := s.responses ++ [⟨.notInitialised, 0x4000000000⟩] }) ∧
  encode .reset = 0x4000000000#40 ∧
  (∀ cw : CmdWord, cw.toNat / 2 ^ 36 = 4 → cw ≠ 0x4000000000#40 → ∃ reason, decode cw = .error reason)

/-- R136: the empty write changes no register; it still undergoes the `init` check; its one word. The premise
`clen ≤ 3` is the carry invariant. -/
def Obligations.EmptyWriteChangesNoRegister : Prop :=
  (∀ s : State, s.init = true → s.clen ≤ 3 → exec .write0 s = .next { s with responses := s.responses ++ [⟨.ok, 0⟩] }) ∧
  (∀ s : State, s.init = false →
    exec .write0 s = .next { s with responses := s.responses ++ [⟨.notInitialised, 0x2000000000⟩] }) ∧
  encode .write0 = 0x2000000000#40

/-- R137, which the spec derives from R135: the table of WRITE1, one line for each `clen`, and its word. -/
def Obligations.OneByteWriteFollowsItsTable : Prop :=
  (∀ d0 : Byte, encode (.write1 d0) = 0x2100000000#40 ||| d0.zeroExtend 40) ∧
  ∀ (s : State) (d0 c0 c1 c2 : Byte), s.init = true →
    (s.carry = [] → exec (.write1 d0) s =
      .next { s with carry := [d0], len := s.len + 1, responses := s.responses ++ [⟨.ok, 0⟩] }) ∧
    (s.carry = [c0] → exec (.write1 d0) s =
      .next { s with carry := [c0, d0], len := s.len + 1, responses := s.responses ++ [⟨.ok, 0⟩] }) ∧
    (s.carry = [c0, c1] → exec (.write1 d0) s =
      .next { s with carry := [c0, c1, d0], len := s.len + 1, responses := s.responses ++ [⟨.ok, 0⟩] }) ∧
    (s.carry = [c0, c1, c2] → exec (.write1 d0) s =
      .next { s with hash := blockRound s.hash (le32 c0 c1 c2 d0), carry := [], len := s.len + 1,
                     responses := s.responses ++ [⟨.ok, 0⟩] })

/-- R138, which the spec derives from R135: the table of WRITE2, one line for each `clen`, and its word. -/
def Obligations.TwoByteWriteFollowsItsTable : Prop :=
  (∀ d0 d1 : Byte, encode (.write2 d0 d1) = 0x2200000000#40 ||| d0.zeroExtend 40 ||| d1.zeroExtend 40 <<< 8) ∧
  ∀ (s : State) (d0 d1 c0 c1 c2 : Byte), s.init = true →
    (s.carry = [] → exec (.write2 d0 d1) s =
      .next { s with carry := [d0, d1], len := s.len + 2, responses := s.responses ++ [⟨.ok, 0⟩] }) ∧
    (s.carry = [c0] → exec (.write2 d0 d1) s =
      .next { s with carry := [c0, d0, d1], len := s.len + 2, responses := s.responses ++ [⟨.ok, 0⟩] }) ∧
    (s.carry = [c0, c1] → exec (.write2 d0 d1) s =
      .next { s with hash := blockRound s.hash (le32 c0 c1 d0 d1), carry := [], len := s.len + 2,
                     responses := s.responses ++ [⟨.ok, 0⟩] }) ∧
    (s.carry = [c0, c1, c2] → exec (.write2 d0 d1) s =
      .next { s with hash := blockRound s.hash (le32 c0 c1 c2 d0), carry := [d1], len := s.len + 2,
                     responses := s.responses ++ [⟨.ok, 0⟩] })

/-- R139, which the spec derives from R135: the table of WRITE3, one line for each `clen`, and its word. -/
def Obligations.ThreeByteWriteFollowsItsTable : Prop :=
  (∀ d0 d1 d2 : Byte, encode (.write3 d0 d1 d2) =
    0x2300000000#40 ||| d0.zeroExtend 40 ||| d1.zeroExtend 40 <<< 8 ||| d2.zeroExtend 40 <<< 16) ∧
  ∀ (s : State) (d0 d1 d2 c0 c1 c2 : Byte), s.init = true →
    (s.carry = [] → exec (.write3 d0 d1 d2) s =
      .next { s with carry := [d0, d1, d2], len := s.len + 3, responses := s.responses ++ [⟨.ok, 0⟩] }) ∧
    (s.carry = [c0] → exec (.write3 d0 d1 d2) s =
      .next { s with hash := blockRound s.hash (le32 c0 d0 d1 d2), carry := [], len := s.len + 3,
                     responses := s.responses ++ [⟨.ok, 0⟩] }) ∧
    (s.carry = [c0, c1] → exec (.write3 d0 d1 d2) s =
      .next { s with hash := blockRound s.hash (le32 c0 c1 d0 d1), carry := [d2], len := s.len + 3,
                     responses := s.responses ++ [⟨.ok, 0⟩] }) ∧
    (s.carry = [c0, c1, c2] → exec (.write3 d0 d1 d2) s =
      .next { s with hash := blockRound s.hash (le32 c0 c1 c2 d0), carry := [d1, d2], len := s.len + 3,
                     responses := s.responses ++ [⟨.ok, 0⟩] })

/-- R140, which the spec derives from R135: the table of WRITE4, one line for each `clen`, its word, and that at `clen
= 0` the block word is the payload. -/
def Obligations.FourByteWriteFollowsItsTable : Prop :=
  (∀ d0 d1 d2 d3 : Byte,
    encode (.write4 d0 d1 d2 d3) =
      0x2400000000#40 ||| d0.zeroExtend 40 ||| d1.zeroExtend 40 <<< 8 ||| d2.zeroExtend 40 <<< 16 |||
        d3.zeroExtend 40 <<< 24 ∧
    le32 d0 d1 d2 d3 = payloadField (encode (.write4 d0 d1 d2 d3))) ∧
  ∀ (s : State) (d0 d1 d2 d3 c0 c1 c2 : Byte), s.init = true →
    (s.carry = [] → exec (.write4 d0 d1 d2 d3) s =
      .next { s with hash := blockRound s.hash (le32 d0 d1 d2 d3), carry := [], len := s.len + 4,
                     responses := s.responses ++ [⟨.ok, 0⟩] }) ∧
    (s.carry = [c0] → exec (.write4 d0 d1 d2 d3) s =
      .next { s with hash := blockRound s.hash (le32 c0 d0 d1 d2), carry := [d3], len := s.len + 4,
                     responses := s.responses ++ [⟨.ok, 0⟩] }) ∧
    (s.carry = [c0, c1] → exec (.write4 d0 d1 d2 d3) s =
      .next { s with hash := blockRound s.hash (le32 c0 c1 d0 d1), carry := [d2, d3], len := s.len + 4,
                     responses := s.responses ++ [⟨.ok, 0⟩] }) ∧
    (s.carry = [c0, c1, c2] → exec (.write4 d0 d1 d2 d3) s =
      .next { s with hash := blockRound s.hash (le32 c0 c1 c2 d0), carry := [d1, d2, d3], len := s.len + 4,
                     responses := s.responses ++ [⟨.ok, 0⟩] })

/-- R141: FINISH on an initialised core answers the hash, computed step by step as the rule writes it, and writes no
register; with an empty carry the tail fold is the identity; directly after NEW or RESET it answers `fmix32(seed)`, 0
for seed 0; asked twice it answers the same twice; NotInitialised before NEW; its one word. -/
def Obligations.FinishAnswersTheFinalHash : Prop :=
  (∀ s : State, s.init = true →
    exec .finish s =
      .next { s with responses := s.responses ++ [⟨.ok,
        (let T := (s.carry ++ [0, 0, 0, 0]).take 4
         let h := mixBlock s.hash (le32 (T.getD 0 0) (T.getD 1 0) (T.getD 2 0) (T.getD 3 0))
         let h := h ^^^ s.len.truncate 32
         let h := h ^^^ h >>> 16
         let h := h * 0x85EBCA6B#32
         let h := h ^^^ h >>> 13
         let h := h * 0xC2B2AE35#32
         let h := h ^^^ h >>> 16
         h.zeroExtend 64)⟩] }) ∧
  (∀ s : State, s.init = true → s.carry = [] →
    exec .finish s =
      .next { s with responses := s.responses ++ [⟨.ok, (fmix32 (s.hash ^^^ s.len.truncate 32)).zeroExtend 64⟩] }) ∧
  (∀ (s : State) (seed : Word), ∃ t, exec (.new seed) s = .next t ∧
    exec .finish t = .next { t with responses := t.responses ++ [⟨.ok, (fmix32 seed).zeroExtend 64⟩] }) ∧
  (∀ s : State, s.init = true → ∃ t, exec .reset s = .next t ∧
    exec .finish t = .next { t with responses := t.responses ++ [⟨.ok, (fmix32 s.seed).zeroExtend 64⟩] }) ∧
  fmix32 0 = 0 ∧
  (∀ s : State, s.init = true → ∃ t r, exec .finish s = .next t ∧ t.responses = s.responses ++ [r] ∧
    exec .finish t = .next { t with responses := t.responses ++ [r] }) ∧
  (∀ s : State, s.init = false →
    exec .finish s = .next { s with responses := s.responses ++ [⟨.notInitialised, 0x3000000000⟩] }) ∧
  encode .finish = 0x3000000000#40 ∧
  (∀ cw : CmdWord, cw.toNat / 2 ^ 36 = 3 → cw ≠ 0x3000000000#40 → ∃ reason, decode cw = .error reason)

/-- R142, which the spec derives from R135: whether a block round fires and the next carry count depend on `clen` and
`n` alone; NEW and RESET force the count to 0; FINISH leaves it and fires no block round. The premise `clen ≤ 3` is
the carry invariant. -/
def Obligations.SequencerControlFollowsTheCounts : Prop :=
  (∀ (s : State) (i : Instr), s.init = true → s.clen ≤ 3 → isWrite i = true →
    ∃ t, exec i s = .next t ∧ t.clen = (s.clen + (beatBytes i).length) % 4 ∧
      (4 ≤ s.clen + (beatBytes i).length →
        t.hash = blockRound s.hash (le32Seq ((s.carry ++ beatBytes i).take 4))) ∧
      (s.clen + (beatBytes i).length < 4 → t.hash = s.hash)) ∧
  (∀ (s : State) (seed : Word), ∃ t, exec (.new seed) s = .next t ∧ t.clen = 0) ∧
  (∀ s : State, s.init = true → ∃ t, exec .reset s = .next t ∧ t.clen = 0) ∧
  (∀ s : State, s.init = true → ∃ t, exec .finish s = .next t ∧ t.clen = s.clen ∧ t.hash = s.hash)

/-- R143, which the spec derives from R135: payload byte `d[i]` of a beat lands at block byte position `(clen + i) mod
4`: in the block word that fires, or in the new carry; a carry byte `j` keeps its position `j`. The premise `clen ≤ 3`
is the carry invariant. -/
def Obligations.PayloadBytesLandAtTheirLane : Prop :=
  ∀ (s : State) (i : Instr), s.init = true → s.clen ≤ 3 → isWrite i = true →
    ∃ t, exec i s = .next t ∧
      (4 ≤ s.clen + (beatBytes i).length →
        ∃ w, t.hash = blockRound s.hash w ∧
          (∀ (j : Nat) (b : Byte), s.carry[j]? = some b → w.extractLsb' (8 * j) 8 = b) ∧
          (∀ (k : Nat) (b : Byte), (beatBytes i)[k]? = some b → s.clen + k < 4 →
            w.extractLsb' (8 * ((s.clen + k) % 4)) 8 = b) ∧
          (∀ (k : Nat) (b : Byte), (beatBytes i)[k]? = some b → 4 ≤ s.clen + k →
            t.carry[(s.clen + k) % 4]? = some b)) ∧
      (s.clen + (beatBytes i).length < 4 →
        (∀ (j : Nat) (b : Byte), s.carry[j]? = some b → t.carry[j]? = some b) ∧
        (∀ (k : Nat) (b : Byte), (beatBytes i)[k]? = some b → t.carry[(s.clen + k) % 4]? = some b))

/-- R144, which the spec derives from R130 to R141: what each command leaves unchanged, and that no command touches
the events to come, what was delivered, or the responses that waited already. -/
def Obligations.CommandFrames : Prop :=
  (∀ (s t : State) (i : Instr), exec i s = .next t →
    t.events = s.events ∧ t.delivered = s.delivered ∧ t.resets = s.resets ∧ ∃ r, t.responses = s.responses ++ [r]) ∧
  (∀ s t : State, exec .reset s = .next t → t.seed = s.seed ∧ t.init = s.init) ∧
  (∀ (s t : State) (i : Instr), isWrite i = true → exec i s = .next t →
    t.seed = s.seed ∧ t.init = s.init ∧ (s.clen + (beatBytes i).length < 4 → t.hash = s.hash)) ∧
  (∀ s t : State, exec .write0 s = .next t → s.clen ≤ 3 → SameRegisters s t) ∧
  (∀ s t : State, exec .finish s = .next t → SameRegisters s t) ∧
  (∀ (s t : State) (i : Instr), isNew i = false → s.init = false → exec i s = .next t → SameRegisters s t) ∧
  (∀ (s t : State) (cw : CmdWord) (rest : List HostEvent) (reason : IllegalReason),
    s.events = .command cw :: rest → decode cw = .error reason → step s = .next t → SameRegisters s t)

/-! ## Streams -/

/-- R135, which the spec derives from R134: each beat is the write of any length (R134) on its bytes. The premise
`clen ≤ 3` is the carry invariant. -/
def Obligations.BeatIsTheGeneralWrite : Prop :=
  ∀ (s : State) (i : Instr), s.init = true → s.clen ≤ 3 → isWrite i = true →
    exec i s = .next { writeBytes (beatBytes i) s with responses := s.responses ++ [⟨.ok, 0⟩] }

/-- R161, which the spec derives from R134 and R113: writing `A` then `B` leaves every register as writing `A ‖ B`
does. -/
def Obligations.WritesConcatenate : Prop :=
  ∀ (A B : List Byte) (s : State), writeBytes B (writeBytes A s) = writeBytes (A ++ B) s

/-- R165 and R161, which the spec derives: every cutting of a byte sequence into beats of 0 to 4 bytes leaves the
state that one write of the whole leaves, and every beat answers OK. -/
def Obligations.ChunkingDoesNotMatter : Prop :=
  ∀ (chunks : List (List Byte)) (is : List Instr) (s : State), s.init = true → s.clen ≤ 3 →
    chunks.mapM beatInstr = some is →
      execAll is s =
        .next { writeBytes chunks.flatten s with responses := s.responses ++ List.replicate chunks.length ⟨.ok, 0⟩ }

/-- R160: WRITEN's canonical expansion is `|B| / 4` WRITE4 beats and then, if bytes are left, one WRITE of the rest;
it leaves the state `write(B)` leaves. -/
def Obligations.WriteNIsTheWriteOfAnyLength : Prop :=
  (∀ B : List Byte, (writeN B).length = (B.length + 3) / 4 ∧ (writeN B).flatMap beatBytes = B ∧
    ∀ k, k < B.length / 4 → ∃ d0 d1 d2 d3, (writeN B)[k]? = some (.write4 d0 d1 d2 d3)) ∧
  (∀ (B : List Byte) (s : State), s.init = true → s.clen ≤ 3 →
    execAll (writeN B) s =
      .next { writeBytes B s with responses := s.responses ++ List.replicate (writeN B).length ⟨.ok, 0⟩ })

/-- R166, which the spec derives from R136: an empty write put anywhere among commands leaves the same registers in
the end. -/
def Obligations.EmptyWritesAreNeutral : Prop :=
  ∀ (xs ys : List Instr) (s : State), s.clen ≤ 3 →
    ∃ t u, execAll (xs ++ ys) s = .next t ∧ execAll (xs ++ .write0 :: ys) s = .next u ∧ SameRegisters t u

/-- R167, which the spec derives from R141: FINISH twice answers the same value twice and leaves the registers. -/
def Obligations.FinishIsIdempotent : Prop :=
  ∀ s : State, s.init = true →
    ∃ r, execAll [.finish, .finish] s = .next { s with responses := s.responses ++ [r, r] } ∧
      r = ⟨.ok, (finalize32 s.hash s.len s.carry).zeroExtend 64⟩

/-- R162, and R164, which the spec derives: HASHB from any state, even one never initialised, answers OK throughout,
its last response is `hash_bytes(B, s)` zero-extended, its result that hash, and the context then holds the seed and
the stream `B`. -/
def Obligations.HashBIsTheOneShotFunction : Prop :=
  ∀ (seed : Word) (B : List Byte) (s : State),
    ∃ t, execAll (hashB seed B) s = .next t ∧ t.seed = seed ∧ Represents t B ∧
      t.responses = s.responses ++ List.replicate ((B.length + 3) / 4 + 1) ⟨.ok, 0⟩ ++
        [⟨.ok, (hashBytes B seed).zeroExtend 64⟩] ∧
      hashBResult ⟨.ok, (hashBytes B seed).zeroExtend 64⟩ = hashBytes B seed

/-- R26, and R28, which the spec derives from it: while initialised, the registers are those of the stream of R28,
through every step: completed commands, faulting commands, and events that are no command. -/
def Obligations.EveryStepKeepsTheStream : Prop :=
  ∀ (s t : State) (stream : List Byte), (s.init = true → Represents s stream) →
    step s = .next t → t.init = true → Represents t (streamAfterStep s stream)

/-- R170, which the spec derives: after any words with no NEW and no RESET among them, writes, FINISHes and illegal
words alike, the registers are those of the stream extended by the writes' bytes, and a FINISH answers `hash_bytes` of
it. -/
def Obligations.FinishHashesTheWholeStream : Prop :=
  ∀ (ws : List CmdWord) (rest : List HostEvent) (s : State) (stream : List Byte),
    Represents s stream → s.events = ws.map HostEvent.command ++ rest →
    (∀ w ∈ ws, decode w ≠ .ok .reset ∧ ∀ seed, decode w ≠ .ok (.new seed)) →
      ∃ t S, core.run ws.length s = .next t ∧
        S = stream ++ ws.flatMap (fun w => match decode w with | .ok i => beatBytes i | .error _ => []) ∧
        t.seed = s.seed ∧ Represents t S ∧
        exec .finish t =
          .next { t with responses := t.responses ++ [⟨.ok, (hashBytes S s.seed).zeroExtend 64⟩] }

/-- R169, in the part the spec derives: for a fixed input the hash is a bijection of the seed, so different seeds
always give different hashes. -/
def Obligations.DifferentSeedsNeverCollide : Prop :=
  ∀ B : List Byte, Function.Bijective (hashBytes B)

/-! ## Whole-machine rules -/

/-- R26 items 1 and 5: every step keeps `clen ≤ 3`, and `clen = len mod 4` while initialised. -/
def Obligations.EveryStepKeepsTheCarryInvariant : Prop :=
  ∀ s t : State, CarryInvariant s → step s = .next t → CarryInvariant t

/-- The carry invariant holds right after reset; that the carry is empty there is the model's choice (log entry 3). -/
def Obligations.CarryInvariantHoldsAtReset : Prop := CarryInvariant State.reset

/-- R24: only NEW writes `seed` (a hardware reset forgets it). -/
def Obligations.OnlyNewWritesTheSeed : Prop :=
  ∀ s t : State, step s = .next t → t.seed ≠ s.seed →
    (∃ cw rest, s.events = .command cw :: rest ∧ decode cw = .ok (.new t.seed)) ∨
    (∃ rest, s.events = .hardwareReset :: rest)

/-- R25: `init` becomes 1 only when a NEW executes, and only a hardware reset sets it back to 0. -/
def Obligations.InitChangesOnlyByNewAndHardwareReset : Prop :=
  ∀ s t : State, step s = .next t →
    (s.init = false → t.init = true →
      ∃ cw rest seed, s.events = .command cw :: rest ∧ decode cw = .ok (.new seed)) ∧
    (s.init = true → t.init = false → ∃ rest, s.events = .hardwareReset :: rest)

/-- R186, which the spec derives: if every command word is legal and the first is a NEW, every response is OK. -/
def Obligations.LegalWordsAfterNewAllComplete : Prop :=
  ∀ (w : CmdWord) (seed : Word) (ws : List CmdWord) (rest : List HostEvent) (s : State),
    decode w = .ok (.new seed) → (∀ v ∈ ws, ∃ i, decode v = .ok i) →
    s.events = (w :: ws).map HostEvent.command ++ rest →
      ∃ t rs, core.run (ws.length + 1) s = .next t ∧ t.events = rest ∧ t.responses = s.responses ++ rs ∧
        rs.length = ws.length + 1 ∧ AllOk rs

/-- R34, and R201, which the spec derives: two cores that differ only in registers that hold no value answer alike for
ever, whatever the host does, and agree on every register once a NEW has executed. -/
def Obligations.UnspecifiedRegistersAreNeverSeen : Prop :=
  ∀ (k : Nat) (s t : State), SameButUnspecified s t →
    ∃ s' t', core.run k s = .next s' ∧ core.run k t = .next t' ∧ SameButUnspecified s' t'

/-- R35, R209: two cores that differ only in `len[63:32]` answer alike for ever, whatever the host does. -/
def Obligations.HighHalfOfLengthIsNeverSeen : Prop :=
  ∀ (k : Nat) (s t : State), SameButLenHigh s t →
    ∃ s' t', core.run k s = .next s' ∧ core.run k t = .next t' ∧ SameButLenHigh s' t'

/-- R60, R76: issuing commands as words and stepping is performing the commands. -/
def Obligations.SteppingWordsPerformsTheCommands : Prop :=
  ∀ (is : List Instr) (rest : List HostEvent) (s : State), s.events = commandEvents is ++ rest →
    ∃ t, execAll is { s with events := rest } = .next t ∧ core.run is.length s = .next t
end

