-- ==== Sys2Proof/Laws/Datapath.lean ====
section
/-! SUPPORT. The small laws of the datapath functions that later proofs cite. -/

namespace Sys2Proof.Machine

@[simp] theorem blockWords_nil : blockWords [] = [] := rfl

@[simp] theorem blockWords_block (b0 b1 b2 b3 : Byte) (rest : List Byte) :
    blockWords (b0 :: b1 :: b2 :: b3 :: rest) = le32 b0 b1 b2 b3 :: blockWords rest := rfl

@[simp] theorem absorb_nil (h : Word) : absorb h [] = h := by simp [absorb]

@[simp] theorem absorb_block (h : Word) (b0 b1 b2 b3 : Byte) (rest : List Byte) :
    absorb h (b0 :: b1 :: b2 :: b3 :: rest) = absorb (blockRound h (le32 b0 b1 b2 b3)) rest := by
  simp only [absorb, blockWords_block, List.foldl_cons]

/-- The blocks of `A ‖ B` are those of `A`, then those of `B`, when `A` is whole blocks. -/
theorem blockWords_append (A B : List Byte) (hA : A.length % 4 = 0) :
    blockWords (A ++ B) = blockWords A ++ blockWords B := by
  match A, hA with
  | [], _ => rfl
  | [_], hA => simp at hA
  | [_, _], hA => simp at hA
  | [_, _, _], hA => simp at hA
  | b0 :: b1 :: b2 :: b3 :: rest, hA =>
    simp only [List.cons_append, blockWords_block]
    rw [blockWords_append rest B (by simp only [List.length_cons] at hA; omega)]

/-- R113: absorbing `A ‖ B` is absorbing `A`, then `B`, when `A` is whole blocks. -/
theorem absorb_append (h : Word) (A B : List Byte) (hA : A.length % 4 = 0) :
    absorb h (A ++ B) = absorb (absorb h A) B := by
  simp only [absorb, blockWords_append A B hA, List.foldl_append]

theorem fullBytes_le (L : Nat) : fullBytes L ≤ L := by unfold fullBytes; omega

theorem fullBytes_mod (L : Nat) : fullBytes L % 4 = 0 := by unfold fullBytes; omega

theorem fullBytes_rest (L : Nat) : L - fullBytes L = L % 4 := by unfold fullBytes; omega

theorem fullBytes_small {L : Nat} (h : L < 4) : fullBytes L = 0 := by unfold fullBytes; omega

/-- R104: the scramble of the zero word is 0. -/
@[simp] theorem scramble_zero : scramble 0#32 = 0#32 := by decide

/-- R106: a zero word leaves the hash. -/
@[simp] theorem mixBlock_zero (h : Word) : mixBlock h 0#32 = h := by simp [mixBlock]

theorem tailBuffer_length (carry : List Byte) : (tailBuffer carry).length = 4 := by
  simp [tailBuffer]

/-- R112: only `len[31:0]` enters the result. -/
theorem finalize32_congr_len {len len' : DWord} (h : len.truncate 32 = len'.truncate 32) (hash : Word)
    (carry : List Byte) : finalize32 hash len carry = finalize32 hash len' carry := by
  simp only [finalize32, h]

end Sys2Proof.Machine
end

