-- ==== Sys2Proof/Laws/Decode.lean ====
section
/-! SUPPORT. The fields of a command word, of a word written as header and payload, and as numbers. -/

namespace Sys2Proof

/-- An append as a sum. -/
theorem append_toNat {m n : Nat} (a : BitVec m) (b : BitVec n) : (a ++ b).toNat = 2 ^ n * a.toNat + b.toNat := by
  rw [BitVec.toNat_append, Nat.shiftLeft_eq, Nat.mul_comm, Nat.two_pow_add_eq_or_of_lt b.isLt]

theorem header_payload_toNat (h : BitVec 8) (p : Word) : (h ++ p : CmdWord).toNat = 2 ^ 32 * h.toNat + p.toNat :=
  append_toNat h p

theorem opField_toNat (cw : CmdWord) : (opField cw).toNat = cw.toNat / 2 ^ 36 := by
  have := cw.isLt
  simp only [opField, BitVec.extractLsb'_toNat, Nat.shiftRight_eq_div_pow]
  omega

theorem rsvField_toNat (cw : CmdWord) : (rsvField cw).toNat = cw.toNat / 2 ^ 35 % 2 := by
  simp only [rsvField, BitVec.extractLsb'_toNat, Nat.shiftRight_eq_div_pow, Nat.pow_one]

theorem countField_toNat (cw : CmdWord) : (countField cw).toNat = cw.toNat / 2 ^ 32 % 8 := by
  simp only [countField, BitVec.extractLsb'_toNat, Nat.shiftRight_eq_div_pow, Nat.reducePow]

theorem payloadField_toNat (cw : CmdWord) : (payloadField cw).toNat = cw.toNat % 2 ^ 32 := by
  simp only [payloadField, BitVec.extractLsb'_toNat, Nat.shiftRight_zero]

@[simp] theorem opField_append (h : BitVec 8) (p : Word) : opField (h ++ p : CmdWord) = h.extractLsb' 4 4 := by
  apply BitVec.eq_of_toNat_eq
  have := h.isLt; have := p.isLt
  rw [opField_toNat, header_payload_toNat, BitVec.extractLsb'_toNat, Nat.shiftRight_eq_div_pow]
  omega

@[simp] theorem rsvField_append (h : BitVec 8) (p : Word) : rsvField (h ++ p : CmdWord) = h.extractLsb' 3 1 := by
  apply BitVec.eq_of_toNat_eq
  have := h.isLt; have := p.isLt
  rw [rsvField_toNat, header_payload_toNat, BitVec.extractLsb'_toNat, Nat.shiftRight_eq_div_pow]
  omega

@[simp] theorem countField_append (h : BitVec 8) (p : Word) : countField (h ++ p : CmdWord) = h.extractLsb' 0 3 := by
  apply BitVec.eq_of_toNat_eq
  have := h.isLt; have := p.isLt
  rw [countField_toNat, header_payload_toNat, BitVec.extractLsb'_toNat, Nat.shiftRight_zero]
  omega

@[simp] theorem payloadField_append (h : BitVec 8) (p : Word) : payloadField (h ++ p : CmdWord) = p := by
  apply BitVec.eq_of_toNat_eq
  have := p.isLt
  rw [payloadField_toNat, header_payload_toNat]
  omega

/-- A payload as the sum of its lanes. -/
theorem lanes_toNat (d0 d1 d2 d3 : Byte) :
    (lanes d0 d1 d2 d3).toNat = d0.toNat + 2 ^ 8 * d1.toNat + 2 ^ 16 * d2.toNat + 2 ^ 24 * d3.toNat := by
  have h0 : (lanes d0 d1 d2 d3).toNat = 2 ^ 8 * (d3 ++ d2 ++ d1).toNat + d0.toNat := append_toNat (d3 ++ d2 ++ d1) d0
  have h1 := append_toNat (d3 ++ d2) d1
  have h2 := append_toNat d3 d2
  omega

theorem lane_toNat (p : Word) (i : Nat) : (lane p i).toNat = p.toNat / 2 ^ (8 * i) % 256 := by
  simp only [lane, BitVec.extractLsb'_toNat, Nat.shiftRight_eq_div_pow, Nat.reducePow]

@[simp] theorem lane_zero_lanes (d0 d1 d2 d3 : Byte) : lane (lanes d0 d1 d2 d3) 0 = d0 := by
  apply BitVec.eq_of_toNat_eq
  have := d0.isLt
  rw [lane_toNat, lanes_toNat]; omega

@[simp] theorem lane_one_lanes (d0 d1 d2 d3 : Byte) : lane (lanes d0 d1 d2 d3) 1 = d1 := by
  apply BitVec.eq_of_toNat_eq
  have := d0.isLt; have := d1.isLt
  rw [lane_toNat, lanes_toNat]; omega

@[simp] theorem lane_two_lanes (d0 d1 d2 d3 : Byte) : lane (lanes d0 d1 d2 d3) 2 = d2 := by
  apply BitVec.eq_of_toNat_eq
  have := d0.isLt; have := d1.isLt; have := d2.isLt
  rw [lane_toNat, lanes_toNat]; omega

@[simp] theorem lane_three_lanes (d0 d1 d2 d3 : Byte) : lane (lanes d0 d1 d2 d3) 3 = d3 := by
  apply BitVec.eq_of_toNat_eq
  have := d0.isLt; have := d1.isLt; have := d2.isLt; have := d3.isLt
  rw [lane_toNat, lanes_toNat]; omega

end Sys2Proof
end

