-- ==== Sys2Proof/Laws/State.lean ====
section
/-! SUPPORT. For each update of State, what every field is after it (one lemma a field, true by unfolding). -/

namespace Sys2Proof.Machine

/-! ### respond -/

@[simp] theorem respond_hash (status : Status) (data : DWord) (s : State) :
    (respond status data s).hash = s.hash := rfl

@[simp] theorem respond_len (status : Status) (data : DWord) (s : State) :
    (respond status data s).len = s.len := rfl

@[simp] theorem respond_carry (status : Status) (data : DWord) (s : State) :
    (respond status data s).carry = s.carry := rfl

@[simp] theorem respond_seed (status : Status) (data : DWord) (s : State) :
    (respond status data s).seed = s.seed := rfl

@[simp] theorem respond_init (status : Status) (data : DWord) (s : State) :
    (respond status data s).init = s.init := rfl

@[simp] theorem respond_events (status : Status) (data : DWord) (s : State) :
    (respond status data s).events = s.events := rfl

@[simp] theorem respond_responses (status : Status) (data : DWord) (s : State) :
    (respond status data s).responses = s.responses ++ [⟨status, data⟩] := rfl

@[simp] theorem respond_delivered (status : Status) (data : DWord) (s : State) :
    (respond status data s).delivered = s.delivered := rfl

@[simp] theorem respond_resets (status : Status) (data : DWord) (s : State) :
    (respond status data s).resets = s.resets := rfl

/-! ### raiseFault -/

@[simp] theorem raiseFault_hash (f : CommandFault) (cw : CmdWord) (s : State) :
    (raiseFault f cw s).hash = s.hash := rfl

@[simp] theorem raiseFault_len (f : CommandFault) (cw : CmdWord) (s : State) :
    (raiseFault f cw s).len = s.len := rfl

@[simp] theorem raiseFault_carry (f : CommandFault) (cw : CmdWord) (s : State) :
    (raiseFault f cw s).carry = s.carry := rfl

@[simp] theorem raiseFault_seed (f : CommandFault) (cw : CmdWord) (s : State) :
    (raiseFault f cw s).seed = s.seed := rfl

@[simp] theorem raiseFault_init (f : CommandFault) (cw : CmdWord) (s : State) :
    (raiseFault f cw s).init = s.init := rfl

@[simp] theorem raiseFault_events (f : CommandFault) (cw : CmdWord) (s : State) :
    (raiseFault f cw s).events = s.events := rfl

@[simp] theorem raiseFault_responses (f : CommandFault) (cw : CmdWord) (s : State) :
    (raiseFault f cw s).responses = s.responses ++ [⟨faultStatus f, faultData cw⟩] := rfl

@[simp] theorem raiseFault_delivered (f : CommandFault) (cw : CmdWord) (s : State) :
    (raiseFault f cw s).delivered = s.delivered := rfl

@[simp] theorem raiseFault_resets (f : CommandFault) (cw : CmdWord) (s : State) :
    (raiseFault f cw s).resets = s.resets := rfl

/-! ### startStream -/

@[simp] theorem startStream_hash (x : Word) (s : State) :
    (startStream x s).hash = x := rfl

@[simp] theorem startStream_len (x : Word) (s : State) :
    (startStream x s).len = 0 := rfl

@[simp] theorem startStream_carry (x : Word) (s : State) :
    (startStream x s).carry = [] := rfl

@[simp] theorem startStream_seed (x : Word) (s : State) :
    (startStream x s).seed = s.seed := rfl

@[simp] theorem startStream_init (x : Word) (s : State) :
    (startStream x s).init = s.init := rfl

@[simp] theorem startStream_events (x : Word) (s : State) :
    (startStream x s).events = s.events := rfl

@[simp] theorem startStream_responses (x : Word) (s : State) :
    (startStream x s).responses = s.responses := rfl

@[simp] theorem startStream_delivered (x : Word) (s : State) :
    (startStream x s).delivered = s.delivered := rfl

@[simp] theorem startStream_resets (x : Word) (s : State) :
    (startStream x s).resets = s.resets := rfl

/-! ### appendBeat -/

@[simp] theorem appendBeat_hash (d : List Byte) (s : State) :
    (appendBeat d s).hash = if fires s.clen d.length then blockRound s.hash (blockWord (workingBuffer s.carry d)) else s.hash := rfl

@[simp] theorem appendBeat_len (d : List Byte) (s : State) :
    (appendBeat d s).len = s.len + BitVec.ofNat 64 d.length := rfl

@[simp] theorem appendBeat_carry (d : List Byte) (s : State) :
    (appendBeat d s).carry = if fires s.clen d.length then (workingBuffer s.carry d).drop 4 else workingBuffer s.carry d := rfl

@[simp] theorem appendBeat_seed (d : List Byte) (s : State) :
    (appendBeat d s).seed = s.seed := rfl

@[simp] theorem appendBeat_init (d : List Byte) (s : State) :
    (appendBeat d s).init = s.init := rfl

@[simp] theorem appendBeat_events (d : List Byte) (s : State) :
    (appendBeat d s).events = s.events := rfl

@[simp] theorem appendBeat_responses (d : List Byte) (s : State) :
    (appendBeat d s).responses = s.responses := rfl

@[simp] theorem appendBeat_delivered (d : List Byte) (s : State) :
    (appendBeat d s).delivered = s.delivered := rfl

@[simp] theorem appendBeat_resets (d : List Byte) (s : State) :
    (appendBeat d s).resets = s.resets := rfl

/-! ### writeBeat -/

@[simp] theorem writeBeat_hash (d : List Byte) (s : State) :
    (writeBeat d s).hash = (appendBeat d s).hash := rfl

@[simp] theorem writeBeat_len (d : List Byte) (s : State) :
    (writeBeat d s).len = (appendBeat d s).len := rfl

@[simp] theorem writeBeat_carry (d : List Byte) (s : State) :
    (writeBeat d s).carry = (appendBeat d s).carry := rfl

@[simp] theorem writeBeat_seed (d : List Byte) (s : State) :
    (writeBeat d s).seed = s.seed := rfl

@[simp] theorem writeBeat_init (d : List Byte) (s : State) :
    (writeBeat d s).init = s.init := rfl

@[simp] theorem writeBeat_events (d : List Byte) (s : State) :
    (writeBeat d s).events = s.events := rfl

@[simp] theorem writeBeat_responses (d : List Byte) (s : State) :
    (writeBeat d s).responses = s.responses ++ [⟨.ok, 0⟩] := rfl

@[simp] theorem writeBeat_delivered (d : List Byte) (s : State) :
    (writeBeat d s).delivered = s.delivered := rfl

@[simp] theorem writeBeat_resets (d : List Byte) (s : State) :
    (writeBeat d s).resets = s.resets := rfl

/-! ### writeBytes -/

@[simp] theorem writeBytes_hash (B : List Byte) (s : State) :
    (writeBytes B s).hash = absorb s.hash ((workingBuffer s.carry B).take (fullBytes (workingBuffer s.carry B).length)) := rfl

@[simp] theorem writeBytes_len (B : List Byte) (s : State) :
    (writeBytes B s).len = s.len + BitVec.ofNat 64 B.length := rfl

@[simp] theorem writeBytes_carry (B : List Byte) (s : State) :
    (writeBytes B s).carry = (workingBuffer s.carry B).drop (fullBytes (workingBuffer s.carry B).length) := rfl

@[simp] theorem writeBytes_seed (B : List Byte) (s : State) :
    (writeBytes B s).seed = s.seed := rfl

@[simp] theorem writeBytes_init (B : List Byte) (s : State) :
    (writeBytes B s).init = s.init := rfl

@[simp] theorem writeBytes_events (B : List Byte) (s : State) :
    (writeBytes B s).events = s.events := rfl

@[simp] theorem writeBytes_responses (B : List Byte) (s : State) :
    (writeBytes B s).responses = s.responses := rfl

@[simp] theorem writeBytes_delivered (B : List Byte) (s : State) :
    (writeBytes B s).delivered = s.delivered := rfl

@[simp] theorem writeBytes_resets (B : List Byte) (s : State) :
    (writeBytes B s).resets = s.resets := rfl

/-! ### hardwareReset -/

@[simp] theorem hardwareReset_hash (s : State) :
    (hardwareReset s).hash = Config.unspecifiedHash s.resets := rfl

@[simp] theorem hardwareReset_len (s : State) :
    (hardwareReset s).len = Config.unspecifiedLen s.resets := rfl

@[simp] theorem hardwareReset_carry (s : State) :
    (hardwareReset s).carry = (Config.unspecifiedCarry s.resets).take 3 := rfl

@[simp] theorem hardwareReset_seed (s : State) :
    (hardwareReset s).seed = Config.unspecifiedSeed s.resets := rfl

@[simp] theorem hardwareReset_init (s : State) :
    (hardwareReset s).init = false := rfl

@[simp] theorem hardwareReset_events (s : State) :
    (hardwareReset s).events = s.events := rfl

@[simp] theorem hardwareReset_responses (s : State) :
    (hardwareReset s).responses = [] := rfl

@[simp] theorem hardwareReset_delivered (s : State) :
    (hardwareReset s).delivered = s.delivered := rfl

@[simp] theorem hardwareReset_resets (s : State) :
    (hardwareReset s).resets = s.resets + 1 := rfl

/-! ### withFetchWord -/

@[simp] theorem withFetchWord_hash (nbits w : Nat) (s : State) :
    (s.withFetchWord nbits w).hash = s.hash := rfl

@[simp] theorem withFetchWord_len (nbits w : Nat) (s : State) :
    (s.withFetchWord nbits w).len = s.len := rfl

@[simp] theorem withFetchWord_carry (nbits w : Nat) (s : State) :
    (s.withFetchWord nbits w).carry = s.carry := rfl

@[simp] theorem withFetchWord_seed (nbits w : Nat) (s : State) :
    (s.withFetchWord nbits w).seed = s.seed := rfl

@[simp] theorem withFetchWord_init (nbits w : Nat) (s : State) :
    (s.withFetchWord nbits w).init = s.init := rfl

@[simp] theorem withFetchWord_events (nbits w : Nat) (s : State) :
    (s.withFetchWord nbits w).events = .command (tableWord nbits w) :: s.events := rfl

@[simp] theorem withFetchWord_responses (nbits w : Nat) (s : State) :
    (s.withFetchWord nbits w).responses = s.responses := rfl

@[simp] theorem withFetchWord_delivered (nbits w : Nat) (s : State) :
    (s.withFetchWord nbits w).delivered = s.delivered := rfl

@[simp] theorem withFetchWord_resets (nbits w : Nat) (s : State) :
    (s.withFetchWord nbits w).resets = s.resets := rfl

/-! ### deliverResponse -/

@[simp] theorem deliverResponse_hash (s : State) : (deliverResponse s).hash = s.hash := by
  unfold deliverResponse; split <;> rfl

@[simp] theorem deliverResponse_len (s : State) : (deliverResponse s).len = s.len := by
  unfold deliverResponse; split <;> rfl

@[simp] theorem deliverResponse_carry (s : State) : (deliverResponse s).carry = s.carry := by
  unfold deliverResponse; split <;> rfl

@[simp] theorem deliverResponse_seed (s : State) : (deliverResponse s).seed = s.seed := by
  unfold deliverResponse; split <;> rfl

@[simp] theorem deliverResponse_init (s : State) : (deliverResponse s).init = s.init := by
  unfold deliverResponse; split <;> rfl

@[simp] theorem deliverResponse_events (s : State) : (deliverResponse s).events = s.events := by
  unfold deliverResponse; split <;> rfl

@[simp] theorem deliverResponse_resets (s : State) : (deliverResponse s).resets = s.resets := by
  unfold deliverResponse; split <;> rfl

@[simp] theorem deliverResponse_all (s : State) :
    (deliverResponse s).delivered ++ (deliverResponse s).responses = s.delivered ++ s.responses := by
  unfold deliverResponse; split <;> simp_all

/-! ### The view `clen` -/

@[simp] theorem clen_eq (s : State) : s.clen = s.carry.length := rfl

end Sys2Proof.Machine
end

