-- ==== Sys2Proof/Laws/Ops.lean ====
section
/-! SUPPORT. What each shared operation can do, said once: the `init` check, appending a beat, and the meaning of a
command. -/

namespace Sys2Proof.Machine

/-- `perform` once the `init` check is passed. -/
theorem perform_ok {i : Instr} {s : State} (effect : State → State) (h : failsInitCheck i s = false) :
    perform i effect s = .next (effect s) := by simp [perform, h]

/-- `perform` when the `init` check fails (R131). -/
theorem perform_fault {i : Instr} {s : State} (effect : State → State) (h : failsInitCheck i s = true) :
    perform i effect s = .next (raiseFault .notInitialised (encode i) s) := by simp [perform, h]

theorem failsInitCheck_of_init {s : State} (h : s.init = true) (i : Instr) : failsInitCheck i s = false := by
  simp [failsInitCheck, h]

theorem failsInitCheck_eq_true {i : Instr} {s : State} :
    failsInitCheck i s = true ↔ isNew i = false ∧ s.init = false := by simp [failsInitCheck]

/-- The effect of each command once the `init` check is passed. -/
def effectOf (i : Instr) (s : State) : State :=
  match i with
  | .new seed => respond .ok 0 { startStream seed s with seed := seed, init := true }
  | .write0 => writeBeat [] s
  | .write1 d0 => writeBeat [d0] s
  | .write2 d0 d1 => writeBeat [d0, d1] s
  | .write3 d0 d1 d2 => writeBeat [d0, d1, d2] s
  | .write4 d0 d1 d2 d3 => writeBeat [d0, d1, d2, d3] s
  | .finish => respond .ok (hashData (finalHash s)) s
  | .reset => respond .ok 0 (startStream s.seed s)

/-- Every command is its effect behind the `init` check (R130). -/
theorem exec_eq_perform (i : Instr) (s : State) : exec i s = perform i (effectOf i) s := by
  cases i <;> rfl

/-- All that executing a command can do: fault NotInitialised, or its effect. -/
theorem exec_cases {i : Instr} {s t : State} (h : exec i s = .next t) :
    (isNew i = false ∧ s.init = false ∧ t = raiseFault .notInitialised (encode i) s) ∨
    ((isNew i = true ∨ s.init = true) ∧ t = effectOf i s) := by
  rw [exec_eq_perform] at h
  cases hf : failsInitCheck i s with
  | true =>
    rw [perform_fault _ hf] at h
    obtain ⟨h1, h2⟩ := failsInitCheck_eq_true.mp hf
    exact .inl ⟨h1, h2, (Host.Outcome.next.inj h).symm⟩
  | false =>
    rw [perform_ok _ hf] at h
    refine .inr ⟨?_, (Host.Outcome.next.inj h).symm⟩
    revert hf; simp only [failsInitCheck]; cases isNew i <;> simp

/-- A WRITE's effect is its beat (R135). -/
theorem effectOf_write {i : Instr} (h : isWrite i = true) (s : State) : effectOf i s = writeBeat (beatBytes i) s := by
  cases i <;> first | rfl | simp [isWrite] at h

/-- No effect touches the events to come (R60). -/
@[simp] theorem effectOf_events (i : Instr) (s : State) : (effectOf i s).events = s.events := by
  cases i <;> simp only [effectOf, respond_events, writeBeat_events, startStream_events]

/-- No effect touches what was delivered. -/
@[simp] theorem effectOf_delivered (i : Instr) (s : State) : (effectOf i s).delivered = s.delivered := by
  cases i <;> simp only [effectOf, respond_delivered, writeBeat_delivered, startStream_delivered]

/-- No effect touches the count of hardware resets. -/
@[simp] theorem effectOf_resets (i : Instr) (s : State) : (effectOf i s).resets = s.resets := by
  cases i <;> simp only [effectOf, respond_resets, writeBeat_resets, startStream_resets]

/-- What a performed command answers: its status is OK, its data 0 but for FINISH (30_encoding.md R82). -/
def answerOf (i : Instr) (s : State) : Response :=
  match i with
  | .new _ => ⟨.ok, 0⟩
  | .write0 => ⟨.ok, 0⟩
  | .write1 _ => ⟨.ok, 0⟩
  | .write2 _ _ => ⟨.ok, 0⟩
  | .write3 _ _ _ => ⟨.ok, 0⟩
  | .write4 _ _ _ _ => ⟨.ok, 0⟩
  | .finish => ⟨.ok, hashData (finalHash s)⟩
  | .reset => ⟨.ok, 0⟩

theorem answerOf_status (i : Instr) (s : State) : (answerOf i s).status = .ok := by cases i <;> rfl

/-- Every effect responds once, behind the responses that wait (R60). -/
@[simp] theorem effectOf_responses (i : Instr) (s : State) :
    (effectOf i s).responses = s.responses ++ [answerOf i s] := by
  cases i <;> simp only [effectOf, answerOf, respond_responses, writeBeat_responses, startStream_responses]

theorem beatBytes_length_le (i : Instr) : (beatBytes i).length ≤ 4 := by cases i <;> simp [beatBytes]

theorem fires_iff (c n : Nat) : fires c n = true ↔ 4 ≤ c + n := by simp [fires]

/-- R142: the next carry count of a beat. -/
theorem appendBeat_carry_length {s : State} {d : List Byte} (hs : s.carry.length ≤ 3) (hd : d.length ≤ 4) :
    (appendBeat d s).carry.length = (s.carry.length + d.length) % 4 := by
  simp only [appendBeat_carry, fires, clen_eq, workingBuffer, decide_eq_true_eq]
  by_cases hf : 4 ≤ s.carry.length + d.length
  · rw [if_pos hf, List.length_drop, List.length_append]; omega
  · rw [if_neg hf, List.length_append]; omega

/-- The empty beat leaves every register (R136). -/
theorem appendBeat_nil {s : State} (hs : s.carry.length ≤ 3) : appendBeat [] s = s := by
  have h : ¬ 4 ≤ s.carry.length := by omega
  simp [appendBeat, fires, workingBuffer, h]

end Sys2Proof.Machine
end

