-- ==== Sys2Proof/Laws/PerInstr.lean ====
section
/-! SUPPORT. A fact about every command as syntax, one lemma a constructor: its word falls under the row of the opcode
map (30_encoding.md R75) that carries its mnemonic. -/

namespace Sys2Proof.Laws.TableRow

/-- Some row of the opcode map has the command's mnemonic and covers its word. -/
def Statement (i : Instr) : Prop :=
  ∃ r ∈ opcodeMap, r.mnemonic = mnemonicOf i ∧ rowCovers r (encode i) = true

/-- Masking piece by piece. -/
theorem and_parts {m n : Nat} {a b c : BitVec m} {x y z : BitVec n} (h1 : a &&& b = c) (h2 : x &&& y = z) :
    (a ++ x) &&& (b ++ y) = c ++ z := by rw [BitVec.and_append, h1, h2]

/-- A word covered by a row whose mask and pattern are written as header and payload. -/
theorem covers_of_parts {name : String} {h hm hp : BitVec 8} {p pm pp : Word} (h1 : h &&& hm = hp) (h2 : p &&& pm = pp) :
    rowCovers ⟨name, hp ++ pp, hm ++ pm⟩ (h ++ p) = true :=
  beq_iff_eq.mpr (and_parts h1 h2)

/-- Masking lane by lane. -/
theorem and_lanes {a b c d am bm cm dm ar br cr dr : Byte} (ha : a &&& am = ar) (hb : b &&& bm = br)
    (hc : c &&& cm = cr) (hd : d &&& dm = dr) : lanes a b c d &&& lanes am bm cm dm = lanes ar br cr dr :=
  and_parts (and_parts (and_parts hd hc) hb) ha

theorem new (seed : Word) : Statement (.new seed) :=
  ⟨⟨"NEW", 0x1000000000, 0xFF00000000⟩, by decide, rfl,
    covers_of_parts (hm := 0xFF) (hp := 0x10) (pm := 0) (pp := 0) (by decide) (by simp)⟩

theorem write0 : Statement .write0 := ⟨⟨"WRITE0", 0x2000000000, 0xFFFFFFFFFF⟩, by decide, rfl, by decide⟩

theorem write1 (d0 : Byte) : Statement (.write1 d0) :=
  ⟨⟨"WRITE1", 0x2100000000, 0xFFFFFFFF00⟩, by decide, rfl,
    covers_of_parts (hm := 0xFF) (hp := 0x21) (pm := lanes 0 0xFF 0xFF 0xFF) (pp := lanes 0 0 0 0) (by decide)
      (and_lanes (by simp) (by decide) (by decide) (by decide))⟩

theorem write2 (d0 d1 : Byte) : Statement (.write2 d0 d1) :=
  ⟨⟨"WRITE2", 0x2200000000, 0xFFFFFF0000⟩, by decide, rfl,
    covers_of_parts (hm := 0xFF) (hp := 0x22) (pm := lanes 0 0 0xFF 0xFF) (pp := lanes 0 0 0 0) (by decide)
      (and_lanes (by simp) (by simp) (by decide) (by decide))⟩

theorem write3 (d0 d1 d2 : Byte) : Statement (.write3 d0 d1 d2) :=
  ⟨⟨"WRITE3", 0x2300000000, 0xFFFF000000⟩, by decide, rfl,
    covers_of_parts (hm := 0xFF) (hp := 0x23) (pm := lanes 0 0 0 0xFF) (pp := lanes 0 0 0 0) (by decide)
      (and_lanes (by simp) (by simp) (by simp) (by decide))⟩

theorem write4 (d0 d1 d2 d3 : Byte) : Statement (.write4 d0 d1 d2 d3) :=
  ⟨⟨"WRITE4", 0x2400000000, 0xFF00000000⟩, by decide, rfl,
    covers_of_parts (hm := 0xFF) (hp := 0x24) (pm := 0) (pp := 0) (by decide) (by simp)⟩

theorem finish : Statement .finish := ⟨⟨"FINISH", 0x3000000000, 0xFFFFFFFFFF⟩, by decide, rfl, by decide⟩

theorem reset : Statement .reset := ⟨⟨"RESET", 0x4000000000, 0xFFFFFFFFFF⟩, by decide, rfl, by decide⟩

end Sys2Proof.Laws.TableRow
end

