-- ==== Sys2Proof/Laws/Step.lean ====
section
/-! SUPPORT. The step, one lemma for each event, and all that a step can do. -/

namespace Sys2Proof.Machine

theorem step_takeResponse {s : State} {rest : List HostEvent} (h : s.events = .takeResponse :: rest) :
    step s = .next (deliverResponse { s with events := rest }) := by simp [step, h]

theorem step_hardwareReset {s : State} {rest : List HostEvent} (h : s.events = .hardwareReset :: rest) :
    step s = .next (hardwareReset { s with events := rest }) := by simp [step, h]

theorem step_illegal {s : State} {rest : List HostEvent} {cw : CmdWord} {reason : IllegalReason}
    (h : s.events = .command cw :: rest) (hd : decode cw = .error reason) :
    step s = .next (raiseFault .illegalCommand cw { s with events := rest }) := by simp [step, h, hd]

/-- All that a step can do: idle, deliver, reset, answer an illegal word, or run a command. -/
theorem step_cases {s t : State} (h : step s = .next t) :
    (s.events = [] ∧ t = s) ∨
    (∃ rest, s.events = .takeResponse :: rest ∧ t = deliverResponse { s with events := rest }) ∨
    (∃ rest, s.events = .hardwareReset :: rest ∧ t = hardwareReset { s with events := rest }) ∨
    (∃ cw rest reason, s.events = .command cw :: rest ∧ decode cw = .error reason ∧
      t = raiseFault .illegalCommand cw { s with events := rest }) ∨
    (∃ cw rest i, s.events = .command cw :: rest ∧ decode cw = .ok i ∧
      exec i { s with events := rest } = .next t) := by
  unfold step at h
  split at h
  · next he => exact .inl ⟨he, (Host.Outcome.next.inj h).symm⟩
  · next rest he => exact .inr (.inl ⟨rest, he, (Host.Outcome.next.inj h).symm⟩)
  · next rest he => exact .inr (.inr (.inl ⟨rest, he, (Host.Outcome.next.inj h).symm⟩))
  · next cw rest he =>
    split at h
    · next reason hd => exact .inr (.inr (.inr (.inl ⟨cw, rest, reason, he, hd, (Host.Outcome.next.inj h).symm⟩)))
    · next i hd => exact .inr (.inr (.inr (.inr ⟨cw, rest, i, he, hd, h⟩)))

end Sys2Proof.Machine
end

