-- ==== Sys2Proof/Tests/Slice0.lean ====
section
/-! SUPPORT. Tests. Expected values are the spec's: 95_test_vectors.md (V numbers and chunk scenarios are the source's own
vectors, its other sections are derived by the spec's script), the tables of 30_encoding.md, or the worked examples of
40_datapath.md and 41_commands.md. The last part holds, for every statement with hypotheses, states and operands that
meet them. -/

namespace Sys2Proof.Tests

open Sys2Proof Sys2Proof.Machine

/-- The state a step leads to, if it leads to one. -/
def after (o : Host.Outcome State Fault Refusal) : Option State :=
  match o with
  | .next s => some s
  | .fault _ => none
  | .refused _ => none

/-- An initialised core with seed 0 and nothing on its channels. -/
def working (hash : Word) (len : DWord) (carry : List Byte) : State :=
  { State.reset with hash := hash, len := len, carry := carry, init := true }

/-- A core whose host does this next. -/
def facing (s : State) (es : List HostEvent) : State := { s with events := es }

/-- The three registers that WRITE changes. -/
def streamOf (s : State) : Word × DWord × List Byte := (s.hash, s.len, s.carry)

/-! ## Well-formedness: each check refuses a word (30_encoding.md R71 to R74; 95_test_vectors.md 2.11) -/

theorem test_wellFormed_refuses_opcode :
    CommandWord.opcodeLegal 0x5000000000 = false ∧ CommandWord.wellFormed 0x5000000000 = false := by decide

theorem test_wellFormed_refuses_zero_word : CommandWord.wellFormed 0x0000000000 = false := by decide

theorem test_wellFormed_refuses_reserved_bit :
    CommandWord.reservedClear 0x1800000000 = false ∧ CommandWord.wellFormed 0x1800000000 = false := by decide

theorem test_wellFormed_refuses_count_of_write :
    CommandWord.countLegal 0x2500000000 = false ∧ CommandWord.wellFormed 0x2500000000 = false := by decide

theorem test_wellFormed_refuses_count_of_new :
    CommandWord.countLegal 0x11000004D2 = false ∧ CommandWord.wellFormed 0x11000004D2 = false := by decide

theorem test_wellFormed_refuses_unused_lane :
    CommandWord.unusedLanesClear 0x2100006261 = false ∧ CommandWord.wellFormed 0x2100006261 = false := by decide

theorem test_wellFormed_refuses_payload :
    CommandWord.payloadClear 0x3000000001 = false ∧ CommandWord.wellFormed 0x3000000001 = false := by decide

theorem test_wellFormed_accepts :
    CommandWord.wellFormed 0x10FFFFFFFF = true ∧ CommandWord.wellFormed 0x2464636261 = true ∧
    CommandWord.wellFormed 0x4000000000 = true := by decide

/-! ## Decoding: a word written out bit by bit from each row of 30_encoding.md R75 (`op_rsv_n`, then the four lanes) -/

theorem test_decode_new :
    decode 0b0001_0_000_00000000_00000000_00000100_11010010 = .ok (.new 0x000004D2) := by decide

theorem test_decode_write0 :
    decode 0b0010_0_000_00000000_00000000_00000000_00000000 = .ok .write0 := by decide

theorem test_decode_write1 :
    decode 0b0010_0_001_00000000_00000000_00000000_01100001 = .ok (.write1 0x61) := by decide

theorem test_decode_write2 :
    decode 0b0010_0_010_00000000_00000000_01100010_01100001 = .ok (.write2 0x61 0x62) := by decide

theorem test_decode_write3 :
    decode 0b0010_0_011_00000000_01100011_01100010_01100001 = .ok (.write3 0x61 0x62 0x63) := by decide

theorem test_decode_write4 :
    decode 0b0010_0_100_01100100_01100011_01100010_01100001 = .ok (.write4 0x61 0x62 0x63 0x64) := by decide

theorem test_decode_finish :
    decode 0b0011_0_000_00000000_00000000_00000000_00000000 = .ok .finish := by decide

theorem test_decode_reset :
    decode 0b0100_0_000_00000000_00000000_00000000_00000000 = .ok .reset := by decide

/-- A zero byte in a valid lane is data (95_test_vectors.md 2.11). -/
theorem test_decode_zero_bytes :
    decode 0x2100000000 = .ok (.write1 0) ∧ decode 0x2400000000 = .ok (.write4 0 0 0 0) ∧
    decode 0x1000000000 = .ok (.new 0) ∧ decode 0x10FFFFFFFF = .ok (.new 0xFFFFFFFF) := by decide

/-- Illegal words, each under its reason (R77; 95_test_vectors.md 2.11). -/
theorem test_decode_illegal :
    decode 0x0000000000 = .error .reservedOpcode ∧ decode 0xF000000000 = .error .reservedOpcode ∧
    decode 0x2800000000 = .error .reservedBit ∧ decode 0xFFFFFFFFFF = .error .reservedBit ∧
    decode 0x3100000000 = .error .countNotZero ∧ decode 0x4400000000 = .error .countNotZero ∧
    decode 0x2700000000 = .error .countTooLarge ∧ decode 0x2000000061 = .error .unusedLane ∧
    decode 0x2201000000 = .error .unusedLane ∧ decode 0x2301000000 = .error .unusedLane ∧
    decode 0x4000000001 = .error .payloadNotZero := by decide

theorem test_encode :
    encode (.new 0x4D2) = 0x10000004D2 ∧ encode (.write1 0x61) = 0x2100000061 ∧
    encode (.write2 0x61 0x62) = 0x2200006261 ∧ encode (.write3 0x61 0x62 0x63) = 0x2300636261 ∧
    encode (.write4 0x61 0x62 0x63 0x64) = 0x2464636261 := by decide

theorem test_decodeTableWord :
    decodeTableWord 40 0x2100000061 = some (.write1 0x61) ∧ decodeTableWord 40 0x3000000000 = some .finish ∧
    decodeTableWord 40 0x2500000000 = none := by decide

/-- The placed word is the next event and its command runs. -/
theorem test_withFetchWord :
    (after (step (State.reset.withFetchWord 40 0x10000004D2))).map (fun s => (s.seed, s.init, s.events)) =
      some (0x4D2, true, []) := by decide

/-! ## The datapath (95_test_vectors.md 2.1 to 2.9; examples of 40_datapath.md) -/

theorem test_le32 : le32 0x12 0x34 0x56 0x78 = 0x78563412 ∧ le32 0x00 0x00 0x00 0x80 = 0x80000000 := by decide

theorem test_rotl32 :
    rotl32 0x12345678 13 = 0x8ACF0246 ∧ rotl32 0x12345678 15 = 0x2B3C091A ∧ rotl32 0x80000000 1 = 1 ∧
    rotl32 0xDEADBEEF 31 = 0xEF56DF77 := by decide

theorem test_mul32 :
    mul32 0xFFFFFFFF 0xCC9E2D51 = 0x3361D2AF ∧ mul32 0x66666666 5 = 0xFFFFFFFE ∧
    mul32 0xFFFF0000 0x85EBCA6B = 0x35950000 := by decide

theorem test_scramble : scramble 0x64636261 = 0x5B9433B7 ∧ scramble 0x80000000 = 0xCD64C000 := by decide

theorem test_mixBlock :
    mixBlock 0x000004D2 0x64636261 = 0x5B943765 ∧ mixBlock 0xFFFFFFFF 0xFFFFFFFF = 0x44114FEF := by decide

theorem test_postMix : postMix 0xFFFFFFFF = 0xE6546B5F ∧ postMix 0x33333333 = 0xE6546B62 := by decide

theorem test_blockRound :
    blockRound 0x86A7049E 0x68676665 = 0xA6C877AF ∧ blockRound 0xFFFFFFFF 0xFFFFFFFF = 0xB849F5EE := by decide

theorem test_tailWord :
    tailWord [0x65, 0x66, 0x67] = 0x00676665 ∧ tailWord [0x00, 0x00] = 0 ∧ tailWord [0x61, 0x62] = 0x6261 := by decide

theorem test_fmix32 : fmix32 1 = 0x514E28B7 ∧ fmix32 0x80000000 = 0x6D3C65A0 := by decide

/-- The last row of 2.10 needs the 64-bit length truncated, not the low byte alone. -/
theorem test_finalize32 :
    finalize32 0x86A7049E 18446744073709551613 [0x65] = 0xA79573ED ∧
    finalize32 0x86A7049E 4294967301 [0x65] = 0xE89B9AF6 := by decide

/-- Source vectors V6 and V9; V4 refutes sign-filling shifts (95_test_vectors.md section 4). -/
theorem test_hashBytes :
    hashBytes [0x61, 0x62, 0x63, 0x64, 0x65, 0x66, 0x67] 1234 = 1113025207 ∧
    hashBytes [0x61, 0x62, 0x63, 0x64, 0x65, 0x66, 0x67, 0x68] 0 = 1239272644 ∧
    hashBytes [0x61, 0x62, 0x63, 0x64] 0 = 1139631978 ∧ hashBytes [] 1234 = 254590987 := by decide

/-! ## The commands (95_test_vectors.md 2.10 and 2.12 to 2.14) -/

/-- A live context is replaced (2.13, second row). -/
theorem test_new :
    after (exec (.new 0) { working 0x88F3C49E 7 [0x65, 0x66, 0x67] with seed := 0x4D2 }) =
      some { State.reset with init := true, responses := [⟨.ok, 0⟩] } := by decide

/-- 2.13, third row: the seed comes back. -/
theorem test_reset :
    (after (exec .reset { working 0x88F3C49E 7 [0x65, 0x66, 0x67] with seed := 0x4D2 })).map
      (fun s => (streamOf s, s.seed)) = some ((0x4D2, 0, []), 0x4D2) := by decide

theorem test_write0 :
    (after (exec .write0 (working 0x4D2 103 [0xA1, 0xA2, 0xA3]))).map streamOf =
      some (0x4D2, 103, [0xA1, 0xA2, 0xA3]) := by decide

theorem test_write1_fills :
    (after (exec (.write1 0xB1) (working 0x4D2 102 [0xA1, 0xA2]))).map streamOf =
      some (0x4D2, 103, [0xA1, 0xA2, 0xB1]) := by decide

/-- 2.14, third row: the length carries into bit 32 and a block fires. -/
theorem test_write1_fires :
    (after (exec (.write1 0xB1) (working 0x4D2 0xFFFFFFFF [0xA1, 0xA2, 0xA3]))).map streamOf =
      some (0xD235A76B, 0x100000000, []) := by decide

theorem test_write2_fires :
    (after (exec (.write2 0xB1 0xB2) (working 0x4D2 103 [0xA1, 0xA2, 0xA3]))).map streamOf =
      some (0xD235A76B, 105, [0xB2]) := by decide

theorem test_write2_completes :
    (after (exec (.write2 0xB1 0xB2) (working 0x4D2 102 [0xA1, 0xA2]))).map streamOf =
      some (0x4C118A4B, 104, []) := by decide

theorem test_write3_fires :
    (after (exec (.write3 0xB1 0xB2 0xB3) (working 0x4D2 102 [0xA1, 0xA2]))).map streamOf =
      some (0x4C118A4B, 105, [0xB3]) := by decide

theorem test_write3_completes :
    (after (exec (.write3 0xB1 0xB2 0xB3) (working 0x4D2 101 [0xA1]))).map streamOf =
      some (0x04E23A20, 104, []) := by decide

theorem test_write4_aligned :
    (after (exec (.write4 0xB1 0xB2 0xB3 0xB4) (working 0x4D2 100 []))).map streamOf =
      some (0x82E54818, 104, []) := by decide

/-- 2.14, first row: `len` wraps at 2^64. -/
theorem test_write4_wraps :
    (after (exec (.write4 0xB1 0xB2 0xB3 0xB4) (working 0x4D2 0xFFFFFFFFFFFFFFFF [0xA1, 0xA2, 0xA3]))).map streamOf =
      some (0xD235A76B, 3, [0xB2, 0xB3, 0xB4]) := by decide

theorem test_finish :
    after (exec .finish (working 0x88F3C49E 7 [0x65, 0x66, 0x67])) =
      some { working 0x88F3C49E 7 [0x65, 0x66, 0x67] with responses := [⟨.ok, 0x42576AB7⟩] } := by decide

/-- 95_test_vectors.md 2.13, last row, as the 68-bit word. -/
theorem test_reset_uninitialised :
    (after (exec .reset State.reset)).map (fun s => s.responses.map responseWord) =
      some [0x20000004000000000] := by decide

/-- P4: an illegal word on an uninitialised core reports code 1, and no register changes (R184). -/
theorem test_illegal_word :
    after (step (facing State.reset [.command 0xFFFFFFFFFF])) =
      some { State.reset with responses := [⟨.illegalCommand, 0xFFFFFFFFFF⟩] } := by decide

theorem test_takeResponse :
    (after (step (facing { State.reset with responses := [⟨.ok, 1⟩, ⟨.ok, 2⟩] } [.takeResponse]))).map
      (fun s => (s.responses, s.delivered)) = some ([⟨.ok, 2⟩], [⟨.ok, 1⟩]) := by decide

theorem test_hardwareReset :
    (after (step (facing { working 1 2 [3] with responses := [⟨.ok, 1⟩] } [.hardwareReset]))).map
      (fun s => (s.init, s.responses)) = some (false, []) := by decide

/-! ## Listings and pseudo-instructions (R84, R85, R160) -/

theorem test_readLine_new : readLine "NEW 0x000004D2".toList = some (.new 0x4D2) := by decide

theorem test_readLine_write : readLine "WRITE 61 62 63 64".toList = some (.write [0x61, 0x62, 0x63, 0x64]) := by decide

theorem test_readLine_write0 : readLine "WRITE".toList = some (.write []) := by decide

theorem test_readLine_writeN : readLine "WRITEN \"abcde\"".toList = some (.writeN [0x61, 0x62, 0x63, 0x64, 0x65]) := by
  decide

theorem test_readLine_hashB :
    readLine "HASHB 0x00000000, \"abcd\"".toList = some (.hashB 0 [0x61, 0x62, 0x63, 0x64]) := by decide

theorem test_readLine_refuses_five_bytes : readLine "WRITE 61 62 63 64 65".toList = none := by decide

/-- "`WRITE 61 62 63 64` is `0x2464636261`" (R84). -/
theorem test_assembleWords :
    assembleWords (.write [0x61, 0x62, 0x63, 0x64]) = some [0x2464636261] ∧
    assembleWords (.writeN [0x61, 0x62, 0x63, 0x64, 0x65]) = some [0x2464636261, 0x2100000065] := by decide

/-! ## Witnesses: what the hypotheses of the statements ask for can be met -/

theorem witness_StepRunsTheDecodedCommand :
    (facing State.reset [.command 0x2100000061]).events = .command 0x2100000061 :: [] ∧
    decode 0x2100000061 = .ok (.write1 0x61) := by decide

theorem witness_IllegalWordIsAnsweredWithCodeOne :
    (facing State.reset [.command 0]).events = .command 0 :: [] ∧ decode 0 = .error .reservedOpcode := by decide

theorem witness_UninitialisedCommandsAreAnsweredWithCodeTwo_notNew :
    (facing State.reset [.command 0x2000000000]).events = .command 0x2000000000 :: [] ∧
    decode 0x2000000000 = .ok .write0 ∧ isNew .write0 = false ∧
    (facing State.reset [.command 0x2000000000]).init = false := by decide

theorem witness_UninitialisedCommandsAreAnsweredWithCodeTwo_new :
    (facing State.reset [.command 0x10FFFFFFFF]).events = .command 0x10FFFFFFFF :: [] ∧
    decode 0x10FFFFFFFF = .ok (.new 0xFFFFFFFF) := by decide

theorem witness_UninitialisedCommandsAreAnsweredWithCodeTwo_initialised :
    (facing (working 0 0 []) [.command 0]).events = .command 0 :: [] ∧
    (facing (working 0 0 []) [.command 0]).init = true := by decide

theorem witness_UninitialisedCommandsAreAnsweredWithCodeTwo_stays :
    (facing (working 0 0 []) [.takeResponse]).init = true ∧
    ∀ rest, (facing (working 0 0 []) [.takeResponse]).events ≠ .hardwareReset :: rest :=
  ⟨by decide, fun rest h => by cases h⟩

theorem witness_EveryCommandGetsExactlyOneResponse :
    (facing State.reset [.command 0x3000000000]).events = .command 0x3000000000 :: [] := by decide

theorem witness_ResponsesFollowTheCommandOrder :
    (facing State.reset [.command 0x1000000000, .command 0x3000000000, .takeResponse]).events =
      [0x1000000000, 0x3000000000].map HostEvent.command ++ [.takeResponse] := by decide

theorem witness_NothingChangesWithoutAnEvent : State.reset.events = [] := by decide

theorem witness_OldestResponseIsDelivered :
    (facing { State.reset with responses := [⟨.ok, 0⟩] } [.takeResponse]).events = .takeResponse :: [] ∧
    (facing { State.reset with responses := [⟨.ok, 0⟩] } [.takeResponse]).responses = ⟨.ok, 0⟩ :: [] ∧
    (facing State.reset [.takeResponse]).events = .takeResponse :: [] ∧
    (facing State.reset [.takeResponse]).responses = [] := by decide

theorem witness_HardwareResetForgetsTheContext :
    (facing (working 1 2 [3, 4]) [.hardwareReset]).events = .hardwareReset :: [] := by decide

theorem witness_AfterHardwareResetOnlyNewCompletes :
    (facing (working 1 2 [3, 4]) [.hardwareReset, .command 0x4000000000]).events =
      .hardwareReset :: .command 0x4000000000 :: [] ∧ decode 0x4000000000 = .ok .reset ∧ isNew .reset = false ∧
    (facing (working 1 2 [3, 4]) [.hardwareReset, .command 0x1000000000]).events =
      .hardwareReset :: .command 0x1000000000 :: [] ∧ decode 0x1000000000 = .ok (.new 0) := by decide

theorem witness_EncodeOfDecodeIsTheWord : decode 0x24FFFFFFFF = .ok (.write4 0xFF 0xFF 0xFF 0xFF) := by decide

theorem witness_OpcodeMapDecidesTheCommand :
    decode 0x2300FFFFFF = .ok (.write3 0xFF 0xFF 0xFF) ∧ decode 0x2301FFFFFF = .error .unusedLane := by decide

/-- The word next to each edge of the classes of R77 that no row covers. -/
theorem witness_IllegalWordsAreTheSixClasses :
    [0x0FFFFFFFFF, 0x5000000000, 0x1800000000, 0x1100000000, 0x2500000000, 0x2100000100, 0x4000000001].all
      (fun cw => (opcodeMap.filter fun r => rowCovers r cw) = []) = true ∧
    (facing State.reset [.command 0x5000000000]).events = .command 0x5000000000 :: [] := by decide

theorem witness_RotateMovesEveryBit :
    (1 ≤ 1 ∧ 1 ≤ 31 ∧ 0 < 32) ∧ (1 ≤ 31 ∧ 31 ≤ 31 ∧ 31 < 32) := by decide

theorem witness_TailWordIsZeroFilled : ([] : List Byte).length ≤ 3 ∧ ([1, 2, 3] : List Byte).length ≤ 3 := by decide

theorem witness_NewStartsAContext :
    (0x1800000000#40).toNat / 2 ^ 36 = 1 ∧ (0x1800000000#40).toNat / 2 ^ 35 % 2 = 1 ∧
    (0x1100000000#40).toNat / 2 ^ 36 = 1 ∧ (0x1100000000#40).toNat / 2 ^ 32 % 8 ≠ 0 := by decide

theorem witness_ResetRestoresTheContext :
    (working 1 2 [3, 4]).init = true ∧ State.reset.init = false ∧
    (0x4000000001#40).toNat / 2 ^ 36 = 4 ∧ (0x4000000001 : CmdWord) ≠ 0x4000000000 := by decide

theorem witness_EmptyWriteChangesNoRegister :
    (working 0 0 []).init = true ∧ (working 0 0 []).clen ≤ 3 ∧ (working 0 3 [1, 2, 3]).init = true ∧
    (working 0 3 [1, 2, 3]).clen ≤ 3 ∧ State.reset.init = false := by decide

/-- The four lines of each table of R137 to R140. -/
theorem witness_WriteTables :
    (working 0 0 []).init = true ∧ (working 0 0 []).carry = [] ∧ (working 0 1 [1]).carry = [1] ∧
    (working 0 2 [1, 2]).carry = [1, 2] ∧ (working 0 3 [1, 2, 3]).carry = [1, 2, 3] := by decide

theorem witness_FinishAnswersTheFinalHash :
    (working 0 3 [1, 2, 3]).init = true ∧ (working 0 0 []).init = true ∧ (working 0 0 []).carry = [] ∧
    State.reset.init = false ∧ (0x3100000000#40).toNat / 2 ^ 36 = 3 ∧ (0x3100000000 : CmdWord) ≠ 0x3000000000 := by
  decide

/-- Both sides of `clen + n = 4` (R142). -/
theorem witness_SequencerControlFollowsTheCounts :
    (working 0 3 [1, 2, 3]).init = true ∧ (working 0 3 [1, 2, 3]).clen ≤ 3 ∧ isWrite (.write1 0) = true ∧
    4 ≤ (working 0 3 [1, 2, 3]).clen + (beatBytes (.write1 0)).length ∧
    (working 0 3 [1, 2, 3]).clen + (beatBytes .write0).length < 4 ∧ isWrite .write0 = true := by decide

theorem witness_PayloadBytesLandAtTheirLane :
    (working 0 3 [1, 2, 3]).init = true ∧ (working 0 3 [1, 2, 3]).clen ≤ 3 ∧ isWrite (.write4 5 6 7 8) = true ∧
    (working 0 3 [1, 2, 3]).carry[2]? = some 3 ∧ (beatBytes (.write4 5 6 7 8))[0]? = some 5 ∧
    (working 0 3 [1, 2, 3]).clen + 0 < 4 ∧ (beatBytes (.write4 5 6 7 8))[3]? = some 8 ∧
    4 ≤ (working 0 3 [1, 2, 3]).clen + 3 ∧
    (working 0 2 [1, 2]).clen + (beatBytes (.write1 9)).length < 4 ∧ (beatBytes (.write1 9))[0]? = some 9 := by decide

theorem witness_CommandFrames :
    (after (exec .reset (working 1 2 [3, 4]))).isSome = true ∧
    (after (exec (.write1 7) (working 1 2 [3, 4]))).isSome = true ∧ isWrite (.write1 7) = true ∧
    (working 1 2 [3, 4]).clen + (beatBytes (.write1 7)).length < 4 ∧
    (after (exec .write0 (working 1 2 [3, 4]))).isSome = true ∧ (working 1 2 [3, 4]).clen ≤ 3 ∧
    (after (exec .finish (working 1 2 [3, 4]))).isSome = true ∧
    isNew .finish = false ∧ State.reset.init = false ∧ (after (exec .finish State.reset)).isSome = true ∧
    decode 0x2500000000 = .error .countTooLarge ∧
    (after (step (facing State.reset [.command 0x2500000000]))).isSome = true := by decide

theorem witness_BeatIsTheGeneralWrite :
    (working 0 3 [1, 2, 3]).init = true ∧ (working 0 3 [1, 2, 3]).clen ≤ 3 ∧ isWrite (.write4 1 2 3 4) = true ∧
    isWrite .write0 = true := by decide

/-- A cutting with an empty piece and one that spans a block boundary. -/
theorem witness_ChunkingDoesNotMatter :
    (working 0 3 [1, 2, 3]).init = true ∧ (working 0 3 [1, 2, 3]).clen ≤ 3 ∧
    [[], [4, 5], [6, 7, 8, 9]].mapM beatInstr = some [.write0, .write2 4 5, .write4 6 7 8 9] := by decide

theorem witness_WriteNIsTheWriteOfAnyLength :
    (working 0 3 [1, 2, 3]).init = true ∧ (working 0 3 [1, 2, 3]).clen ≤ 3 ∧
    0 < ([1, 2, 3, 4] : List Byte).length / 4 := by decide

theorem witness_EmptyWritesAreNeutral : (working 0 3 [1, 2, 3]).clen ≤ 3 ∧ State.reset.clen ≤ 3 := by decide

theorem witness_FinishIsIdempotent : (working 0 3 [1, 2, 3]).init = true := by decide

/-- A context that holds the stream `"abcd"` of source vector V4. -/
theorem witness_Represents : Represents (working 0x86A7049E 4 []) [0x61, 0x62, 0x63, 0x64] :=
  ⟨by decide, by decide, by decide, by decide⟩

theorem witness_EveryStepKeepsTheStream :
    ((facing (working 0x86A7049E 4 []) [.command 0x2100000065]).init = true →
      Represents (facing (working 0x86A7049E 4 []) [.command 0x2100000065]) [0x61, 0x62, 0x63, 0x64]) ∧
    (after (step (facing (working 0x86A7049E 4 []) [.command 0x2100000065]))).map (fun t => t.init) = some true :=
  ⟨fun _ => ⟨by decide, by decide, by decide, by decide⟩, by decide⟩

theorem witness_FinishHashesTheWholeStream :
    Represents (facing (working 0x86A7049E 4 []) [.command 0x2100000065, .command 0]) [0x61, 0x62, 0x63, 0x64] ∧
    (facing (working 0x86A7049E 4 []) [.command 0x2100000065, .command 0]).events =
      [0x2100000065, 0].map HostEvent.command ++ [] ∧
    decode 0x2100000065 = .ok (.write1 0x65) ∧ decode 0 = .error .reservedOpcode :=
  ⟨⟨by decide, by decide, by decide, by decide⟩, by decide, by decide, by decide⟩

/-- The bound `clen = 3`, just before a beat completes a block. -/
theorem witness_EveryStepKeepsTheCarryInvariant :
    CarryInvariant (facing (working 0 7 [1, 2, 3]) [.command 0x2100000064]) ∧
    (after (step (facing (working 0 7 [1, 2, 3]) [.command 0x2100000064]))).isSome = true :=
  ⟨⟨by decide, by decide⟩, by decide⟩

theorem witness_OnlyNewWritesTheSeed :
    (after (step (facing (working 0 0 []) [.command 0x1000000005]))).map (fun t => t.seed) = some 5 ∧
    (working 0 0 []).seed = 0 := by decide

theorem witness_InitChangesOnlyByNewAndHardwareReset :
    (after (step (facing State.reset [.command 0x1000000005]))).map (fun t => t.init) = some true ∧
    State.reset.init = false ∧
    (after (step (facing (working 0 0 []) [.hardwareReset]))).map (fun t => t.init) = some false ∧
    (working 0 0 []).init = true := by decide

theorem witness_LegalWordsAfterNewAllComplete :
    decode 0x1000000000 = .ok (.new 0) ∧ (∀ v ∈ [(0x2000000000 : CmdWord)], ∃ i, decode v = .ok i) ∧
    (facing State.reset [.command 0x1000000000, .command 0x2000000000]).events =
      [0x1000000000, 0x2000000000].map HostEvent.command ++ [] :=
  ⟨by decide, by intro v hv; rw [List.mem_singleton.mp hv]; exact ⟨.write0, by decide⟩, by decide⟩

/-- Two uninitialised cores with every unspecified register different. -/
theorem witness_UnspecifiedRegistersAreNeverSeen :
    SameButUnspecified State.reset { State.reset with hash := 1, len := 1, carry := [1], seed := 1 } :=
  ⟨⟨by decide, by decide, by decide⟩, by decide, fun h => absurd h (by decide)⟩

theorem witness_HighHalfOfLengthIsNeverSeen : SameButLenHigh (working 7 5 [1]) (working 7 0x100000005 [1]) :=
  ⟨⟨by decide, by decide, by decide⟩, by decide, by decide, by decide, by decide, by decide, by decide⟩

theorem witness_SteppingWordsPerformsTheCommands :
    (facing State.reset [.command 0x1000000000, .command 0x3000000000]).events =
      commandEvents [.new 0, .finish] ++ [] := by decide

end Sys2Proof.Tests
end

section
/-! PROOFS. The illegal words of 30_encoding.md R77: no row of the opcode map covers them, the decoder refuses them, and
a step answers them without touching a register. -/

namespace Sys2Proof.IllegalWords
open Sys2Proof Sys2Proof.Machine

/-- The six classes of R77, on the four fields of a word (R71 to R74) as numbers. -/
def SixClasses (op rsv n payload : Nat) : Prop :=
  (op = 0 ∨ 5 ≤ op) ∨
  rsv = 1 ∨
  ((op = 1 ∨ op = 3 ∨ op = 4) ∧ n ≠ 0) ∨
  (op = 2 ∧ 5 ≤ n) ∨
  (op = 2 ∧ n ≤ 3 ∧ payload / 2 ^ (8 * n) ≠ 0) ∨
  ((op = 3 ∨ op = 4) ∧ payload ≠ 0)

/-! ## The rows of the opcode map -/

/-- Masking all but the low `k` bits clears them. -/
theorem and_allOnes_shiftLeft {w : Nat} (x : BitVec w) (k : Nat) :
    x &&& BitVec.allOnes w <<< k = x >>> k <<< k := by
  ext i hi
  by_cases hik : i < k
  · simp [hik]
  · simp [hik, show k + (i - k) = i by omega, hi]

/-- Clearing the low `k ≤ 32` bits of a word keeps its header `cw[39:32]`, and the payload from bit `k` up. -/
theorem div_mul_two_pow_eq {k : Nat} (hk : k ≤ 32) (N : Nat) :
    N / 2 ^ k * 2 ^ k = 2 ^ 32 * (N / 2 ^ 32) + N % 2 ^ 32 / 2 ^ k * 2 ^ k := by
  obtain ⟨c, hc⟩ := Nat.pow_dvd_pow 2 hk
  calc N / 2 ^ k * 2 ^ k
      = (2 ^ k * (c * (N / 2 ^ 32)) + N % 2 ^ 32) / 2 ^ k * 2 ^ k := by rw [← Nat.mul_assoc, ← hc, Nat.div_add_mod]
    _ = (c * (N / 2 ^ 32) + N % 2 ^ 32 / 2 ^ k) * 2 ^ k := by rw [Nat.mul_add_div (Nat.two_pow_pos k)]
    _ = 2 ^ 32 * (N / 2 ^ 32) + N % 2 ^ 32 / 2 ^ k * 2 ^ k := by rw [hc]; ring

/-- A row whose match has payload 0 and whose mask keeps all but the low `k` bits (every row of R75 is one) covers the
words with the match's opcode, `rsv` and count, and a payload that is 0 from bit `k` up. -/
theorem rowCovers_iff {mask : CmdWord} {k : Nat} (hmask : mask = BitVec.allOnes 40 <<< k) (hk : k ≤ 32)
    {pattern : CmdWord} (hpattern : pattern.toNat % 2 ^ 32 = 0) (name : String) (cw : CmdWord) :
    rowCovers ⟨name, pattern, mask⟩ cw = true ↔
      cw.toNat / 2 ^ 36 = pattern.toNat / 2 ^ 36 ∧ cw.toNat / 2 ^ 35 % 2 = pattern.toNat / 2 ^ 35 % 2 ∧
      cw.toNat / 2 ^ 32 % 8 = pattern.toNat / 2 ^ 32 % 8 ∧ cw.toNat % 2 ^ 32 / 2 ^ k = 0 := by
  have hfit : cw.toNat / 2 ^ k * 2 ^ k < 2 ^ 40 := (Nat.div_mul_le_self _ _).trans_lt cw.isLt
  have hlow : cw.toNat % 2 ^ 32 / 2 ^ k * 2 ^ k ≤ cw.toNat % 2 ^ 32 := Nat.div_mul_le_self _ _
  have hzero : cw.toNat % 2 ^ 32 / 2 ^ k = 0 ↔ cw.toNat % 2 ^ 32 / 2 ^ k * 2 ^ k = 0 := by
    simp only [Nat.mul_eq_zero, (Nat.two_pow_pos k).ne', or_false]
  change (cw &&& mask == pattern) = true ↔ _
  rw [beq_iff_eq, hmask, and_allOnes_shiftLeft, ← BitVec.toNat_inj, BitVec.toNat_shiftLeft,
    BitVec.toNat_ushiftRight, Nat.shiftRight_eq_div_pow, Nat.shiftLeft_eq, Nat.mod_eq_of_lt hfit,
    div_mul_two_pow_eq hk, hzero]
  generalize cw.toNat % 2 ^ 32 / 2 ^ k * 2 ^ k = low at hlow ⊢
  omega

/-- The fields of a word that no row of R75 covers, row by row. -/
def MissesEveryRow (op rsv n payload : Nat) : Prop :=
  ¬(op = 1 ∧ rsv = 0 ∧ n = 0) ∧
  ¬(op = 2 ∧ rsv = 0 ∧ n = 0 ∧ payload = 0) ∧
  ¬(op = 2 ∧ rsv = 0 ∧ n = 1 ∧ payload / 2 ^ 8 = 0) ∧
  ¬(op = 2 ∧ rsv = 0 ∧ n = 2 ∧ payload / 2 ^ 16 = 0) ∧
  ¬(op = 2 ∧ rsv = 0 ∧ n = 3 ∧ payload / 2 ^ 24 = 0) ∧
  ¬(op = 2 ∧ rsv = 0 ∧ n = 4) ∧
  ¬(op = 3 ∧ rsv = 0 ∧ n = 0 ∧ payload = 0) ∧
  ¬(op = 4 ∧ rsv = 0 ∧ n = 0 ∧ payload = 0)

theorem noRow_iff_missesEveryRow (cw : CmdWord) :
    (opcodeMap.filter fun r => rowCovers r cw) = [] ↔
      MissesEveryRow (cw.toNat / 2 ^ 36) (cw.toNat / 2 ^ 35 % 2) (cw.toNat / 2 ^ 32 % 8) (cw.toNat % 2 ^ 32) := by
  simp [-Bool.not_eq_true, opcodeMap, MissesEveryRow, List.filter_eq_nil_iff,
    rowCovers_iff (mask := 0xFF00000000#40) (k := 32) (by decide),
    rowCovers_iff (mask := 0xFFFF000000#40) (k := 24) (by decide),
    rowCovers_iff (mask := 0xFFFFFF0000#40) (k := 16) (by decide),
    rowCovers_iff (mask := 0xFFFFFFFF00#40) (k := 8) (by decide),
    rowCovers_iff (mask := 0xFFFFFFFFFF#40) (k := 0) (by decide)]

/-- With the count known, the unused lanes of class 5 are the payload divided by a number. -/
theorem missesEveryRow_iff_sixClasses {op rsv n : Nat} (hrsv : rsv < 2) (hn : n < 8) (payload : Nat) :
    MissesEveryRow op rsv n payload ↔ SixClasses op rsv n payload := by
  unfold MissesEveryRow SixClasses
  obtain rfl | rfl : rsv = 0 ∨ rsv = 1 := by omega
  · interval_cases n <;> simp <;> omega
  · simp

/-- The first half of R77. -/
theorem noRow_iff_sixClasses (cw : CmdWord) :
    (opcodeMap.filter fun r => rowCovers r cw) = [] ↔
      SixClasses (cw.toNat / 2 ^ 36) (cw.toNat / 2 ^ 35 % 2) (cw.toNat / 2 ^ 32 % 8) (cw.toNat % 2 ^ 32) := by
  rw [noRow_iff_missesEveryRow,
    missesEveryRow_iff_sixClasses (Nat.mod_lt _ (by decide)) (Nat.mod_lt _ (by decide))]

/-! ## The decoder -/

theorem decodeNew_error_iff (n : BitVec 3) (p : Word) :
    (∃ reason, decodeNew n p = .error reason) ↔ n.toNat ≠ 0 := by
  unfold decodeNew
  split <;> simp_all [BitVec.toNat_eq]

theorem decodeWrite_error_iff (n : Nat) (p : Word) :
    (∃ reason, decodeWrite n p = .error reason) ↔ 5 ≤ n ∨ n ≤ 3 ∧ p.toNat / 2 ^ (8 * n) ≠ 0 := by
  have hfour : n = 4 → p.toNat / 2 ^ (8 * n) = 0 := by
    rintro rfl
    exact Nat.div_eq_of_lt p.isLt
  have hlanes : p >>> (8 * n) = 0 ↔ p.toNat / 2 ^ (8 * n) = 0 := by
    rw [← BitVec.toNat_inj, BitVec.toNat_ushiftRight, Nat.shiftRight_eq_div_pow]
    rfl
  unfold decodeWrite
  simp only [ne_eq, hlanes]
  split_ifs with hlarge hbits
  · exact iff_of_true ⟨_, rfl⟩ (by omega)
  · exact iff_of_false nofun (by omega)
  · exact iff_of_true ⟨_, rfl⟩ (by omega)

theorem decodeBare_error_iff (i : Instr) (n : BitVec 3) (p : Word) :
    (∃ reason, decodeBare i n p = .error reason) ↔ n.toNat ≠ 0 ∨ p.toNat ≠ 0 := by
  unfold decodeBare
  split_ifs <;> simp_all [BitVec.toNat_eq]

/-- The decoder refuses exactly the words of the six classes. -/
theorem decode_error_iff_sixClasses (cw : CmdWord) :
    (∃ reason, decode cw = .error reason) ↔
      SixClasses (opField cw).toNat (rsvField cw).toNat (countField cw).toNat (payloadField cw).toNat := by
  unfold decode SixClasses
  by_cases hrsv : rsvField cw = 1
  · rw [if_pos hrsv]
    exact iff_of_true ⟨_, rfl⟩ (.inr (.inl (congrArg BitVec.toNat hrsv)))
  have hclear : (rsvField cw).toNat ≠ 1 := fun h => hrsv (BitVec.eq_of_toNat_eq h)
  rw [if_neg hrsv]
  split_ifs with hnew hwrite hfinish hreset
  · simp [hnew, hclear, decodeNew_error_iff]
  · simp [hwrite, hclear, decodeWrite_error_iff]
  · simp [hfinish, hclear, decodeBare_error_iff]
  · simp [hreset, hclear, decodeBare_error_iff]
  · refine iff_of_true ⟨_, rfl⟩ (.inl ?_)
    simp only [BitVec.toNat_eq, BitVec.reduceToNat] at hnew hwrite hfinish hreset
    omega

/-! ## R77 -/

/-- Settles O16: the rows a word misses give its class, and by its class the decoder refuses it. -/
theorem illegalWordsAreTheSixClasses : Obligations.IllegalWordsAreTheSixClasses := by
  intro cw
  refine ⟨noRow_iff_sixClasses cw, fun hrow s rest hevents => ?_⟩
  have hclass := (noRow_iff_sixClasses cw).mp hrow
  rw [← opField_toNat, ← rsvField_toNat, ← countField_toNat, ← payloadField_toNat] at hclass
  obtain ⟨reason, hdecode⟩ := (decode_error_iff_sixClasses cw).mpr hclass
  exact step_illegal hevents hdecode

end Sys2Proof.IllegalWords
end

section
/-! PROOFS. The tail word of 40_datapath.md R109: its four lanes are the carry bytes, then zero bytes. -/

namespace Sys2Proof.TailWord
open Sys2Proof Sys2Proof.Machine

/-- Past the carry, `getD`'s default is the zero byte that the tail buffer holds there. -/
theorem tailBuffer_getD (carry : List Byte) {i : Nat} (hi : i < 4) : (tailBuffer carry).getD i 0 = carry.getD i 0 := by
  have hzeros : ([0, 0, 0, 0] : List Byte) = List.replicate 4 0 := rfl
  simp only [tailBuffer, List.getD_eq_getElem?_getD, List.getElem?_take_of_lt hi]
  rcases Nat.lt_or_ge i carry.length with hin | hout
  · rw [List.getElem?_append_left hin]
  · rw [List.getElem?_append_right hout, List.getElem?_eq_none hout, hzeros,
      List.getElem?_getD_replicate_default_eq, Option.getD_none]

theorem tailWord_eq_le32 (carry : List Byte) :
    tailWord carry = le32 (carry.getD 0 0) (carry.getD 1 0) (carry.getD 2 0) (carry.getD 3 0) := by
  simp only [tailWord, le32Seq, tailBuffer_getD, Nat.reduceLT]

/-- R100: the last of the four bytes lands in bits 31:24, where the other three have no bit. -/
theorem le32_top_lane (b0 b1 b2 b3 : Byte) : (le32 b0 b1 b2 b3).extractLsb' 24 8 = b3 := by
  ext i hi
  have h0 : b0.getLsbD (24 + i) = false := BitVec.getLsbD_of_ge _ _ (by omega)
  have h1 : b1.getLsbD (24 + i - 8) = false := BitVec.getLsbD_of_ge _ _ (by omega)
  have h2 : b2.getLsbD (24 + i - 16) = false := BitVec.getLsbD_of_ge _ _ (by omega)
  have hi' : 24 + i < 32 ∧ i < 32 := by omega
  simp [le32, h0, h1, h2, hi', BitVec.getLsbD_eq_getElem hi]

/-- Settles O24: the bytes that a shorter carry lacks are zero lanes, and lane 3 is one of them up to length 3. -/
theorem tailWordIsZeroFilled : Obligations.TailWordIsZeroFilled := by
  refine ⟨?_, fun a => ?_, fun a b => ?_, fun a b c => ?_, fun carry hlen => ?_⟩
  · simp [tailWord_eq_le32, le32]
  · simp [tailWord_eq_le32, le32]
  · simp [tailWord_eq_le32, le32]
  · simp [tailWord_eq_le32, le32]
  · calc (tailWord carry).extractLsb' 24 8
        = carry.getD 3 0 := by rw [tailWord_eq_le32, le32_top_lane]
      _ = 0#8 := List.getD_eq_default _ _ hlen

end Sys2Proof.TailWord
end

section
/-! PROOFS. A legal word is the one encoding of its command (30_encoding.md R76): a word is determined by its four
fields, and the decoder leaves nothing of them behind. -/

namespace Sys2Proof.UniqueEncoding
open Sys2Proof

/-- R70: the four fields fill the word. -/
theorem header_append_eq {cw : CmdWord} {header : BitVec 8} {p : Word} (hop : opField cw = header.extractLsb' 4 4)
    (hrsv : rsvField cw = header.extractLsb' 3 1) (hcount : countField cw = header.extractLsb' 0 3)
    (hpayload : payloadField cw = p) : header ++ p = cw := by
  rw [← opField_append header p, ← BitVec.toNat_inj, opField_toNat, opField_toNat] at hop
  rw [← rsvField_append header p, ← BitVec.toNat_inj, rsvField_toNat, rsvField_toNat] at hrsv
  rw [← countField_append header p, ← BitVec.toNat_inj, countField_toNat, countField_toNat] at hcount
  rw [← payloadField_append header p, ← BitVec.toNat_inj, payloadField_toNat, payloadField_toNat] at hpayload
  apply BitVec.eq_of_toNat_eq
  omega

theorem lanes_lane (p : Word) : lanes (lane p 0) (lane p 1) (lane p 2) (lane p 3) = p := by
  apply BitVec.eq_of_toNat_eq
  have := p.isLt
  simp only [lanes_toNat, lane_toNat]
  omega

/-- R74 (b): the lanes from `n` up are 0 when no bit stands there. -/
theorem lane_eq_zero {p : Word} {n i : Nat} (hp : p >>> (8 * n) = 0) (hi : n ≤ i) : lane p i = 0 := by
  have hsplit : 8 * i = 8 * n + 8 * (i - n) := by omega
  have hshift : p.toNat / 2 ^ (8 * n) = 0 := by
    rw [← Nat.shiftRight_eq_div_pow, ← BitVec.toNat_ushiftRight, hp]
    rfl
  apply BitVec.eq_of_toNat_eq
  rw [lane_toNat, hsplit, Nat.pow_add, ← Nat.div_div_eq_div_mul, hshift, Nat.zero_div]
  rfl

/-! ## What each part of the decoder accepts -/

theorem decodeNew_ok {n : BitVec 3} {p : Word} {i : Instr} (h : decodeNew n p = .ok i) : n = 0 ∧ i = .new p := by
  unfold decodeNew at h
  split_ifs at h with hn
  exact ⟨not_not.mp hn, (Except.ok.inj h).symm⟩

theorem decodeBare_ok {i j : Instr} {n : BitVec 3} {p : Word} (h : decodeBare i n p = .ok j) :
    n = 0 ∧ p = 0 ∧ j = i := by
  unfold decodeBare at h
  split_ifs at h with hn hp
  exact ⟨not_not.mp hn, not_not.mp hp, (Except.ok.inj h).symm⟩

theorem decodeWrite_ok {n : Nat} {p : Word} {i : Instr} (h : decodeWrite n p = .ok i) :
    n ≤ 4 ∧ p >>> (8 * n) = 0 ∧ i = writeOfLanes n p := by
  unfold decodeWrite at h
  split_ifs at h with hn hp
  exact ⟨not_lt.mp hn, not_not.mp hp, (Except.ok.inj h).symm⟩

/-- The header of a WRITE word of `n` lanes (R75). -/
def writeHeader (n : Nat) : BitVec 8 := BitVec.ofNat 8 (0x20 + n)

theorem writeHeader_fields : ∀ n ≤ 4, (writeHeader n).extractLsb' 4 4 = 2 ∧ (writeHeader n).extractLsb' 3 1 = 0 ∧
    (writeHeader n).extractLsb' 0 3 = BitVec.ofNat 3 n := by decide

/-- The WRITE word of `n` lanes carries the payload they were read from. -/
theorem encode_writeOfLanes {n : Nat} {p : Word} (hn : n ≤ 4) (hp : p >>> (8 * n) = 0) :
    encode (writeOfLanes n p) = writeHeader n ++ p := by
  have hunused : ∀ i, n ≤ i → lane p i = 0 := fun i => lane_eq_zero hp
  conv_rhs => rw [← lanes_lane p]
  interval_cases n <;> simp [writeOfLanes, encode, writeHeader, hunused]

/-- R76: encoding what a word decodes to gives the word back. -/
theorem encode_of_decode {cw : CmdWord} {i : Instr} (h : decode cw = .ok i) : encode i = cw := by
  unfold decode at h
  split_ifs at h with hrsv hnew hwrite hfinish hreset
  all_goals replace hrsv : rsvField cw = 0 := by bv_omega
  · obtain ⟨hcount, rfl⟩ := decodeNew_ok h
    exact header_append_eq hnew hrsv hcount rfl
  · obtain ⟨hcount, hlanes, rfl⟩ := decodeWrite_ok h
    obtain ⟨hop', hrsv', hcount'⟩ := writeHeader_fields _ hcount
    rw [encode_writeOfLanes hcount hlanes]
    exact header_append_eq (hwrite.trans hop'.symm) (hrsv.trans hrsv'.symm) (by simpa using hcount'.symm) rfl
  · obtain ⟨hcount, hpayload, rfl⟩ := decodeBare_ok h
    exact header_append_eq hfinish hrsv hcount hpayload
  · obtain ⟨hcount, hpayload, rfl⟩ := decodeBare_ok h
    exact header_append_eq hreset hrsv hcount hpayload

end Sys2Proof.UniqueEncoding
end

section
/-! PROOFS. The rules of 41_commands.md for single commands: the `init` check (R131), NEW (R132), RESET (R133), the
empty write (R136) and FINISH (R141). -/

namespace Sys2Proof.Commands
open Sys2Proof Sys2Proof.Machine Sys2Proof.UniqueEncoding Sys2Proof.IllegalWords

/-! ## Executing a command -/

/-- NEW is never subject to the `init` check (R131). -/
theorem exec_new (seed : Word) (s : State) : exec (.new seed) s = .next (effectOf (.new seed) s) := by
  rw [exec_eq_perform, perform_ok _ rfl]

theorem exec_of_init {s : State} (hinit : s.init = true) (i : Instr) : exec i s = .next (effectOf i s) := by
  rw [exec_eq_perform, perform_ok _ (failsInitCheck_of_init hinit i)]

theorem exec_of_not_init {s : State} {i : Instr} (hnew : isNew i = false) (hinit : s.init = false) :
    exec i s = .next (raiseFault .notInitialised (encode i) s) := by
  rw [exec_eq_perform, perform_fault _ (failsInitCheck_eq_true.mpr ⟨hnew, hinit⟩)]

/-- R25: NEW sets `init`, no other command that completes changes it. -/
@[simp] theorem effectOf_init (i : Instr) (s : State) : (effectOf i s).init = (isNew i || s.init) := by
  cases i <;> rfl

/-! ## The `init` check -/

/-- R130: a legal word runs its command, in the state whose event is consumed. -/
theorem step_legal {s : State} {rest : List HostEvent} {cw : CmdWord} {i : Instr}
    (hevents : s.events = .command cw :: rest) (hdecode : decode cw = .ok i) :
    step s = exec i { s with events := rest } := by simp [step, hevents, hdecode]

/-- R182: once `init` is 1, no word is answered NotInitialised, and `init` stays 1. -/
theorem step_command_of_init {s : State} {rest : List HostEvent} {cw : CmdWord}
    (hevents : s.events = .command cw :: rest) (hinit : s.init = true) :
    ∃ t r, step s = .next t ∧ t.init = true ∧ t.responses = s.responses ++ [r] ∧ r.status ≠ .notInitialised := by
  cases hdecode : decode cw with
  | error reason => exact ⟨_, _, step_illegal hevents hdecode, hinit, rfl, nofun⟩
  | ok i =>
    have hexec := exec_of_init (s := { s with events := rest }) hinit i
    refine ⟨_, _, (step_legal hevents hdecode).trans hexec, ?_, effectOf_responses i _, ?_⟩
    · rw [effectOf_init, hinit, Bool.or_true]
    · rw [answerOf_status]
      nofun

/-- R25: only a hardware reset clears `init`. -/
theorem step_keeps_init {s : State} (hinit : s.init = true) (hreset : ∀ rest, s.events ≠ .hardwareReset :: rest) :
    ∃ t, step s = .next t ∧ t.init = true := by
  rcases hevents : s.events with _ | ⟨⟨cw⟩ | _ | _, rest⟩
  · exact ⟨s, by simp [step, hevents], hinit⟩
  · obtain ⟨t, _, hstep, ht, _⟩ := step_command_of_init hevents hinit
    exact ⟨t, hstep, ht⟩
  · exact ⟨_, step_takeResponse hevents, (deliverResponse_init _).trans hinit⟩
  · exact absurd hevents (hreset rest)

theorem responseWord_code (r : Response) : (responseWord r).extractLsb' 64 4 = statusCode r.status :=
  BitVec.extractLsb'_append_eq_left

/-- R80: bits 63:0 of a response word are its data. -/
theorem responseWord_data {start len : Nat} (h : start + len ≤ 64) (r : Response) :
    (responseWord r).extractLsb' start len = r.data.extractLsb' start len :=
  BitVec.extractLsb'_append_eq_of_add_le h

theorem faultData_low (cw : CmdWord) : (faultData cw).extractLsb' 0 40 = cw := by
  rw [faultData, BitVec.extractLsb'_setWidth_of_le (by decide), BitVec.extractLsb'_eq_self]

theorem faultData_high (cw : CmdWord) : (faultData cw).extractLsb' 40 24 = 0#24 := by
  ext i hi
  simp [faultData]

/-- Settles O4: with `init` 0 the check fails for every command but NEW, with `init` 1 for none; the word in the fault's
response is the accepted one because a command has only that encoding. -/
theorem uninitialisedCommandsAreAnsweredWithCodeTwo : Obligations.UninitialisedCommandsAreAnsweredWithCodeTwo := by
  refine ⟨fun s cw rest i hevents hdecode hnew hinit => ?_, fun s cw rest seed hevents hdecode => ?_,
    fun s cw rest => step_command_of_init, fun s => step_keeps_init⟩
  · have hexec := exec_of_not_init (s := { s with events := rest }) hnew hinit
    rw [encode_of_decode hdecode] at hexec
    refine ⟨_, (step_legal hevents hdecode).trans hexec, rfl, responseWord_code _, ?_, ?_⟩
    · rw [responseWord_data (by decide)]
      exact faultData_low cw
    · rw [responseWord_data (by decide)]
      exact faultData_high cw
  · exact ⟨_, (step_legal hevents hdecode).trans (exec_new seed _), rfl, rfl⟩

/-! ## Malformed words -/

/-- R77, the class read from the word's number. -/
theorem decode_error_of_sixClasses {cw : CmdWord}
    (h : SixClasses (cw.toNat / 2 ^ 36) (cw.toNat / 2 ^ 35 % 2) (cw.toNat / 2 ^ 32 % 8) (cw.toNat % 2 ^ 32)) :
    ∃ reason, decode cw = .error reason := by
  rwa [decode_error_iff_sixClasses, opField_toNat, rsvField_toNat, countField_toNat, payloadField_toNat]

/-- FINISH and RESET have one word each: a further bit in it makes it malformed (R77 items 2, 3, 6). -/
theorem decode_error_of_bare {cw : CmdWord} {op : Nat} (hop : cw.toNat / 2 ^ 36 = op) (hbare : op = 3 ∨ op = 4)
    (hne : cw.toNat ≠ 2 ^ 36 * op) : ∃ reason, decode cw = .error reason := by
  apply decode_error_of_sixClasses
  unfold SixClasses
  omega

/-! ## NEW and RESET -/

/-- Settles O26: NEW passes the `init` check from every state, and its effect sets the six registers. -/
theorem newStartsAContext : Obligations.NewStartsAContext := by
  refine ⟨fun s seed => exec_new seed s, fun seed => ?_, fun cw hop hmalformed => ?_⟩
  · exact BitVec.append_def 0x10#8 seed
  · apply decode_error_of_sixClasses
    unfold SixClasses
    omega

/-- A context in which nothing was written yet: what NEW and RESET leave (R132, R133). -/
structure AtStreamStart (s : State) : Prop where
  initialised : s.init = true
  hash_eq : s.hash = s.seed
  len_eq : s.len = 0
  carry_eq : s.carry = []

theorem effectOf_new_atStreamStart (seed : Word) (s : State) : AtStreamStart (effectOf (.new seed) s) :=
  ⟨rfl, rfl, rfl, rfl⟩

theorem effectOf_reset_atStreamStart {s : State} (hinit : s.init = true) : AtStreamStart (effectOf .reset s) :=
  ⟨hinit, rfl, rfl, rfl⟩

theorem effectOf_reset_eq_new {s : State} (hinit : s.init = true) :
    effectOf .reset s = effectOf (.new s.seed) s := by
  simp [effectOf, respond, startStream, hinit]

/-- R133: at the start of a stream RESET changes no register. -/
theorem exec_reset_of_atStreamStart {s : State} (hs : AtStreamStart s) :
    ∃ t, exec .reset s = .next t ∧ SameRegisters s t :=
  ⟨_, exec_of_init hs.initialised .reset, hs.hash_eq, hs.len_eq, hs.carry_eq, rfl, rfl⟩

/-- Settles O27: RESET's effect is that of NEW with the kept seed, and both leave the start of a stream, where RESET has
nothing to change. -/
theorem resetRestoresTheContext : Obligations.ResetRestoresTheContext := by
  refine ⟨fun s hinit => ⟨exec_of_init hinit .reset, ?_⟩, fun s seed => ?_, fun s hinit => ?_,
    fun s => exec_of_not_init rfl, rfl, fun cw hop hne => ?_⟩
  · rw [exec_of_init hinit, exec_new, effectOf_reset_eq_new hinit]
  · obtain ⟨u, hexec, hsame⟩ := exec_reset_of_atStreamStart (effectOf_new_atStreamStart seed s)
    exact ⟨_, u, exec_new seed s, hexec, hsame⟩
  · obtain ⟨u, hexec, hsame⟩ := exec_reset_of_atStreamStart (effectOf_reset_atStreamStart hinit)
    exact ⟨_, u, exec_of_init hinit .reset, hexec, hsame⟩
  · exact decode_error_of_bare hop (.inr rfl) fun h => hne (BitVec.eq_of_toNat_eq h)

/-! ## The empty write -/

/-- Settles O28: the empty beat completes no block while the carry holds at most three bytes. -/
theorem emptyWriteChangesNoRegister : Obligations.EmptyWriteChangesNoRegister := by
  refine ⟨fun s hinit hclen => ?_, fun s => exec_of_not_init rfl, rfl⟩
  rw [exec_of_init hinit, effectOf, writeBeat, appendBeat_nil hclen, respond]

/-! ## FINISH -/

/-- R111: the avalanche as R141 writes it, each multiplication with the constant second. -/
theorem fmix32_written_out (h : Word) :
    fmix32 h =
      (let h := h ^^^ h >>> 16
       let h := h * 0x85EBCA6B#32
       let h := h ^^^ h >>> 13
       let h := h * 0xC2B2AE35#32
       h ^^^ h >>> 16) := by
  simp only [fmix32, xorShift, mul32, BitVec.mul_comm mulF1, BitVec.mul_comm mulF2]
  rfl

/-- R110: the tail fold of an empty carry is the identity. -/
theorem finalize32_nil (hash : Word) (len : DWord) : finalize32 hash len [] = fmix32 (hash ^^^ len.truncate 32) := by
  rw [finalize32, tailFold, TailWord.tailWordIsZeroFilled.1]
  exact congrArg (fun h => fmix32 (h ^^^ len.truncate 32)) (mixBlock_zero hash)

theorem exec_finish {s : State} (hinit : s.init = true) :
    exec .finish s = .next { s with responses := s.responses ++ [⟨.ok, hashData (finalHash s)⟩] } :=
  exec_of_init hinit .finish

/-- R141 (b): the hash of the empty input. -/
theorem finalHash_of_atStreamStart {s : State} (hs : AtStreamStart s) : finalHash s = fmix32 s.seed := by
  rw [finalHash, hs.hash_eq, hs.len_eq, hs.carry_eq, finalize32_nil]
  simp

/-- Settles O33: FINISH answers `finalize32` of the registers, and leaves them for the next FINISH. -/
theorem finishAnswersTheFinalHash : Obligations.FinishAnswersTheFinalHash := by
  refine ⟨fun s hinit => ?_, fun s hinit hcarry => ?_, fun s seed => ⟨_, exec_new seed s, ?_⟩,
    fun s hinit => ⟨_, exec_of_init hinit .reset, ?_⟩, by decide,
    fun s hinit => ⟨_, _, exec_finish hinit, rfl, exec_finish hinit⟩, fun s => exec_of_not_init rfl, rfl,
    fun cw hop hne => ?_⟩
  · rw [exec_finish hinit, finalHash, finalize32, fmix32_written_out]
    rfl
  · rw [exec_finish hinit, finalHash, hcarry, finalize32_nil]
    rfl
  · have hstart := effectOf_new_atStreamStart seed s
    rw [exec_finish hstart.initialised, finalHash_of_atStreamStart hstart]
    rfl
  · have hstart := effectOf_reset_atStreamStart hinit
    rw [exec_finish hstart.initialised, finalHash_of_atStreamStart hstart]
    rfl
  · exact decode_error_of_bare hop (.inl rfl) fun h => hne (BitVec.eq_of_toNat_eq h)

end Sys2Proof.Commands
end

section
/-! PROOFS. The rule of 60_exceptions.md for the fault IllegalCommand (R181). -/

namespace Sys2Proof.Exceptions
open Sys2Proof Sys2Proof.Machine Sys2Proof.Commands

/-- Settles O3: the one response is `⟨.illegalCommand, faultData cw⟩`, built from the word alone, and its three bit fields
are read off the layout of the response word (R80). -/
theorem illegalWordIsAnsweredWithCodeOne : Obligations.IllegalWordIsAnsweredWithCodeOne := by
  intro s cw rest reason hevents hdecode
  refine ⟨⟨.illegalCommand, faultData cw⟩, step_illegal hevents hdecode, rfl, responseWord_code _, ?_, ?_⟩
  · rw [responseWord_data (by decide)]
    exact faultData_low cw
  · rw [responseWord_data (by decide)]
    exact faultData_high cw

end Sys2Proof.Exceptions
end

section
/-! PROOFS. The encoding of 30_encoding.md: decoding gives back what was encoded (R76), the opcode map names the command
(R75), the field checks accept the legal words (R70 to R74), and the words of commands, listings and responses as the
spec writes them (R76, R80, R84). -/

namespace Sys2Proof.Encoding
open Sys2Proof Sys2Proof.Machine Sys2Proof.UniqueEncoding Sys2Proof.IllegalWords

/-! ## Decoding what was encoded (R76) -/

/-- A WRITE header of `n` lanes, before lanes that fill no more than `n` bytes, is the WRITE of the first `n`. -/
theorem decode_writeWord {n : Nat} {d0 d1 d2 d3 : Byte} (hn : n ≤ 4)
    (hfit : d0.toNat + 2 ^ 8 * d1.toNat + 2 ^ 16 * d2.toNat + 2 ^ 24 * d3.toNat < 2 ^ (8 * n)) :
    decode (writeHeader n ++ lanes d0 d1 d2 d3) = .ok (writeOfLanes n (lanes d0 d1 d2 d3)) := by
  obtain ⟨hop, hrsv, hcount⟩ := writeHeader_fields n hn
  have hcount' : (BitVec.ofNat 3 n).toNat = n := Nat.mod_eq_of_lt (by omega)
  have hunused : lanes d0 d1 d2 d3 >>> (8 * n) = 0 := by
    rw [← BitVec.toNat_inj, BitVec.toNat_ushiftRight, Nat.shiftRight_eq_div_pow, lanes_toNat, Nat.div_eq_of_lt hfit]
    rfl
  simp [decode, decodeWrite, hop, hrsv, hcount, hcount', hunused, hn]

/-- Settles O12: the fields of an encoding are those of its header and its payload, and the payload's lanes are the
operands. -/
theorem decodeOfEncodeIsTheCommand : Obligations.DecodeOfEncodeIsTheCommand := by
  intro i
  cases i with
  | new seed => simp [encode, decode, decodeNew]
  | write0 => decide
  | write1 d0 => exact (decode_writeWord (n := 1) (by decide) (by bv_omega)).trans (by simp [writeOfLanes])
  | write2 d0 d1 => exact (decode_writeWord (n := 2) (by decide) (by bv_omega)).trans (by simp [writeOfLanes])
  | write3 d0 d1 d2 => exact (decode_writeWord (n := 3) (by decide) (by bv_omega)).trans (by simp [writeOfLanes])
  | write4 d0 d1 d2 d3 => exact (decode_writeWord (n := 4) (by decide) (by bv_omega)).trans (by simp [writeOfLanes])
  | finish => decide
  | reset => decide

/-- Settles O13, by the unique encoding of a legal word. -/
theorem encodeOfDecodeIsTheWord : Obligations.EncodeOfDecodeIsTheWord :=
  fun _ _ => encode_of_decode

/-- Settles O11. -/
theorem sampleWordsDecode : Obligations.SampleWordsDecode := by
  unfold Obligations.SampleWordsDecode
  decide

/-! ## The opcode map (R75) -/

/-- Two rows that ask for different bits where both masks look cover no word in common. -/
def RowsClash (r q : OpcodeRow) : Prop := r.pattern &&& q.mask ≠ q.pattern &&& r.mask

theorem not_rowCovers_of_rowsClash {r q : OpcodeRow} (h : RowsClash r q) {cw : CmdWord}
    (hr : rowCovers r cw = true) : ¬ rowCovers q cw = true := by
  intro hq
  simp only [rowCovers, beq_iff_eq] at hr hq
  apply h
  rw [← hr, ← hq, BitVec.and_assoc, BitVec.and_assoc, BitVec.and_comm r.mask]

/-- R75: the eight patterns are pairwise disjoint. -/
theorem opcodeMap_pairwise_clash : opcodeMap.Pairwise RowsClash := by
  unfold RowsClash
  decide

/-- A row that covers a word is the only one that does. -/
theorem filter_rowCovers_eq_singleton {r : OpcodeRow} {cw : CmdWord} (hmem : r ∈ opcodeMap)
    (hcovers : rowCovers r cw = true) : (opcodeMap.filter fun r => rowCovers r cw) = [r] := by
  have hin : r ∈ opcodeMap.filter fun r => rowCovers r cw := List.mem_filter.mpr ⟨hmem, hcovers⟩
  have hclash := opcodeMap_pairwise_clash.filter fun r => rowCovers r cw
  have hall : ∀ q ∈ opcodeMap.filter fun r => rowCovers r cw, rowCovers q cw = true :=
    fun q hq => (List.mem_filter.mp hq).2
  match hrows : opcodeMap.filter fun r => rowCovers r cw with
  | [] => simp [hrows] at hin
  | [q] =>
    rw [hrows, List.mem_singleton] at hin
    rw [hin]
  | q :: q' :: rows =>
    rw [hrows] at hclash hall
    exact absurd (hall q' (by simp))
      (not_rowCovers_of_rowsClash (List.rel_of_pairwise_cons hclash (by simp)) (hall q (by simp)))

/-- Each command's word falls under the row of its mnemonic. -/
theorem tableRow (i : Instr) : Laws.TableRow.Statement i := by
  cases i with
  | new seed => exact Laws.TableRow.new seed
  | write0 => exact Laws.TableRow.write0
  | write1 d0 => exact Laws.TableRow.write1 d0
  | write2 d0 d1 => exact Laws.TableRow.write2 d0 d1
  | write3 d0 d1 d2 => exact Laws.TableRow.write3 d0 d1 d2
  | write4 d0 d1 d2 d3 => exact Laws.TableRow.write4 d0 d1 d2 d3
  | finish => exact Laws.TableRow.finish
  | reset => exact Laws.TableRow.reset

/-- R77: the decoder refuses a word exactly when it is in one of the six classes, read from the word's number. -/
theorem decode_error_iff (cw : CmdWord) :
    (∃ reason, decode cw = .error reason) ↔
      SixClasses (cw.toNat / 2 ^ 36) (cw.toNat / 2 ^ 35 % 2) (cw.toNat / 2 ^ 32 % 8) (cw.toNat % 2 ^ 32) := by
  rw [decode_error_iff_sixClasses, opField_toNat, rsvField_toNat, countField_toNat, payloadField_toNat]

/-- Settles O15: the rows are disjoint, so the row of a command's mnemonic is the only one that covers its word; and the
words of the six classes are those no row covers. -/
theorem opcodeMapDecidesTheCommand : Obligations.OpcodeMapDecidesTheCommand := by
  refine fun cw => ⟨fun i hdecode => ?_, fun reason hdecode => ?_⟩
  · obtain ⟨r, hmem, hname, hcovers⟩ := tableRow i
    rw [encode_of_decode hdecode] at hcovers
    rw [filter_rowCovers_eq_singleton hmem hcovers, List.map_singleton, hname]
  · exact (noRow_iff_sixClasses cw).mpr ((decode_error_iff cw).mp ⟨reason, hdecode⟩)

/-! ## The field checks (R70 to R74) -/

theorem decode_ok_iff (cw : CmdWord) : (∃ i, decode cw = .ok i) ↔ ¬ ∃ reason, decode cw = .error reason := by
  cases decode cw <;> simp

/-- The checks of R71 to R74 on the four fields of a word as numbers. -/
theorem wellFormed_iff (cw : CmdWord) :
    CommandWord.wellFormed cw = true ↔
      ¬ SixClasses (cw.toNat / 2 ^ 36) (cw.toNat / 2 ^ 35 % 2) (cw.toNat / 2 ^ 32 % 8) (cw.toNat % 2 ^ 32) := by
  have hrsv : cw.toNat / 2 ^ 35 % 2 < 2 := Nat.mod_lt _ (by decide)
  have hcount : cw.toNat / 2 ^ 32 % 8 < 8 := Nat.mod_lt _ (by decide)
  have hpayload : cw.toNat % 2 ^ 32 < 2 ^ 32 := Nat.mod_lt _ (by decide)
  simp only [CommandWord.wellFormed, CommandWord.opcodeLegal, CommandWord.reservedClear, CommandWord.countLegal,
    CommandWord.unusedLanesClear, CommandWord.payloadClear, SixClasses]
  generalize cw.toNat / 2 ^ 36 = op
  generalize cw.toNat / 2 ^ 35 % 2 = rsv at *
  generalize cw.toNat / 2 ^ 32 % 8 = n at *
  generalize cw.toNat % 2 ^ 32 = payload at *
  interval_cases n <;> simp <;> omega

/-- Settles O17: both are the complement of the six classes of R77. -/
theorem wellFormedWordsAreTheLegalWords : Obligations.WellFormedWordsAreTheLegalWords := by
  intro cw
  rw [wellFormed_iff, decode_ok_iff, decode_error_iff]

/-! ## The words as numbers (R76, R84) -/

/-- A header and four lanes as the or of their shifted parts. -/
theorem header_lanes_eq_or (header d0 d1 d2 d3 : Byte) :
    (header ++ lanes d0 d1 d2 d3 : CmdWord) =
      header.zeroExtend 40 <<< 32 ||| d0.zeroExtend 40 ||| d1.zeroExtend 40 <<< 8 ||| d2.zeroExtend 40 <<< 16 |||
        d3.zeroExtend 40 <<< 24 := by
  ext i hi
  grind [lanes]

/-- Settles O14: header and lanes, each shifted to its place. -/
theorem encodingsAreTheNumbersOfTheSpec : Obligations.EncodingsAreTheNumbersOfTheSpec := by
  refine ⟨fun seed => BitVec.append_def 0x10#8 seed, rfl, ?_, ?_, ?_, ?_, rfl, rfl⟩ <;>
    simp [encode, header_lanes_eq_or]

/-- Settles O19: each line form stands for one command, whose word R76 gives. -/
theorem assemblerWordsAreTheSpecs : Obligations.AssemblerWordsAreTheSpecs := by
  obtain ⟨hnew, hwrite0, hwrite1, hwrite2, hwrite3, hwrite4, hfinish, hreset⟩ := encodingsAreTheNumbersOfTheSpec
  unfold Obligations.AssemblerWordsAreTheSpecs
  simp [assembleWords, assemble, beatInstr, hnew, hwrite0, hwrite1, hwrite2, hwrite3, hwrite4, hfinish, hreset]

/-- Settles O18: a response word is code and data, side by side. -/
theorem responseWordLayout : Obligations.ResponseWordLayout :=
  ⟨fun r => (Commands.responseWord_data (by decide) r).trans BitVec.extractLsb'_eq_self,
    fun _ => Commands.responseWord_code _, fun _ => Commands.responseWord_code _, fun _ => Commands.responseWord_code _⟩

end Sys2Proof.Encoding
end

section
/-! PROOFS. The write of any length (41_commands.md R134): writing in two parts (R161), each beat as such a write
(R135), sequences of beats (R165), and WRITEN (42_pseudo_and_laws.md R160). -/

namespace Sys2Proof.Writes
open Sys2Proof Sys2Proof.Machine Sys2Proof.Commands

/-! ## Two writes are one (R161) -/

/-- The blocks of `D ‖ B` are those of `D`, and those of the rest of `D` with `B` behind it. -/
theorem fullBytes_append (D B : List Byte) :
    fullBytes (D ++ B).length = fullBytes D.length + fullBytes (D.drop (fullBytes D.length) ++ B).length := by
  simp only [List.length_append, List.length_drop]
  unfold fullBytes
  omega

theorem absorb_blocks_append (h : Word) (D B : List Byte) :
    let rest := D.drop (fullBytes D.length) ++ B
    absorb (absorb h (D.take (fullBytes D.length))) (rest.take (fullBytes rest.length)) =
      absorb h ((D ++ B).take (fullBytes (D ++ B).length)) := by
  have hle := fullBytes_le D.length
  have hwhole : (D.take (fullBytes D.length)).length % 4 = 0 := by
    rw [List.length_take, min_eq_left hle, fullBytes_mod]
  intro rest
  rw [← absorb_append _ _ _ hwhole, fullBytes_append D B, List.take_add, List.take_append_of_le_length hle,
    List.drop_append_of_le_length hle]

theorem drop_blocks_append (D B : List Byte) :
    let rest := D.drop (fullBytes D.length) ++ B
    rest.drop (fullBytes rest.length) = (D ++ B).drop (fullBytes (D ++ B).length) := by
  intro rest
  rw [fullBytes_append D B, ← List.drop_drop, List.drop_append_of_le_length (fullBytes_le D.length)]

/-- Settles O38: the blocks of `carry ‖ A ‖ B` are those of `carry ‖ A` and those of what that write left, with `B`. -/
theorem writesConcatenate : Obligations.WritesConcatenate := by
  intro A B s
  have hhash := absorb_blocks_append s.hash (workingBuffer s.carry A) B
  have hcarry := drop_blocks_append (workingBuffer s.carry A) B
  have hlen : s.len + BitVec.ofNat 64 A.length + BitVec.ofNat 64 B.length =
      s.len + BitVec.ofNat 64 (A ++ B).length := by
    rw [List.length_append, BitVec.ofNat_add, BitVec.add_assoc]
  simp only [workingBuffer, List.append_assoc] at hhash hcarry
  simp only [writeBytes, workingBuffer, hhash, hcarry, hlen]

theorem writeBytes_nil {s : State} (hs : s.carry.length ≤ 3) : writeBytes [] s = s := by
  simp [writeBytes, workingBuffer, fullBytes_small (Nat.lt_succ_of_le hs)]

theorem writeBytes_carry_length_le (B : List Byte) (s : State) : (writeBytes B s).carry.length ≤ 3 := by
  rw [writeBytes_carry, List.length_drop, fullBytes_rest]
  omega

/-! ## A beat is a write of any length (R135) -/

theorem absorb_of_length_four {B : List Byte} (hB : B.length = 4) (h : Word) :
    absorb h B = blockRound h (le32Seq B) := by
  match B, hB with
  | [b0, b1, b2, b3], _ => simp [le32Seq]

theorem appendBeat_eq_writeBytes {s : State} {d : List Byte} (hs : s.carry.length ≤ 3) (hd : d.length ≤ 4) :
    appendBeat d s = writeBytes d s := by
  simp only [appendBeat, writeBytes, fires, clen_eq, decide_eq_true_eq]
  have hlen : (workingBuffer s.carry d).length = s.carry.length + d.length := List.length_append
  by_cases hfire : 4 ≤ s.carry.length + d.length
  · have hfull : fullBytes (s.carry.length + d.length) = 4 := by
      unfold fullBytes
      omega
    have hfour : ((workingBuffer s.carry d).take 4).length = 4 := by
      rw [List.length_take]
      omega
    simp only [if_pos hfire, hlen, hfull, absorb_of_length_four hfour, blockWord]
  · simp [hfire, hlen, fullBytes_small (Nat.lt_of_not_le hfire)]

theorem exec_write {s : State} {i : Instr} (hinit : s.init = true) (hwrite : isWrite i = true) :
    exec i s = .next (writeBeat (beatBytes i) s) := by
  rw [exec_of_init hinit, effectOf_write hwrite]

/-- Settles O37: a beat fires where the working buffer holds one whole block, and it never holds two. -/
theorem beatIsTheGeneralWrite : Obligations.BeatIsTheGeneralWrite := by
  intro s i hinit hclen hwrite
  rw [exec_write hinit hwrite, writeBeat, appendBeat_eq_writeBytes hclen (beatBytes_length_le i)]
  rfl

/-! ## Sequences of beats (R165, R160) -/

/-- The state in which a write of the bytes `B`, answered OK `n` times, leaves the core. -/
def wrote (B : List Byte) (n : Nat) (s : State) : State :=
  { writeBytes B s with responses := s.responses ++ List.replicate n ⟨.ok, 0⟩ }

theorem wrote_wrote (A B : List Byte) (m n : Nat) (s : State) :
    wrote B n (wrote A m s) = wrote (A ++ B) (m + n) s := by
  simp only [wrote, ← writesConcatenate A B s, List.append_assoc, ← List.replicate_append_replicate]
  rfl

/-- R165: beats in a row are one write of all their bytes. -/
theorem execAll_writes {is : List Instr} (hwrites : ∀ i ∈ is, isWrite i = true) {s : State} (hinit : s.init = true)
    (hclen : s.clen ≤ 3) : execAll is s = .next (wrote (is.flatMap beatBytes) is.length s) := by
  induction is generalizing s with
  | nil => simp [execAll, wrote, writeBytes_nil hclen]
  | cons i is ih =>
    have hbeat : exec i s = .next (wrote (beatBytes i) 1 s) :=
      beatIsTheGeneralWrite s i hinit hclen (hwrites i (by simp))
    have hrest := ih (fun j hj => hwrites j (List.mem_cons_of_mem i hj)) (s := wrote (beatBytes i) 1 s) hinit
      (writeBytes_carry_length_le _ _)
    rw [execAll, hbeat]
    simp only [hrest, wrote_wrote, List.flatMap_cons, List.length_cons, Nat.add_comm 1]

/-- R84: the form that carries a beat's bytes is a WRITE and hands over these bytes. -/
theorem beatInstr_eq_some {d : List Byte} {i : Instr} (h : beatInstr d = some i) :
    isWrite i = true ∧ beatBytes i = d := by
  unfold beatInstr at h
  split at h <;> cases h <;> exact ⟨rfl, rfl⟩

/-- A cutting of bytes into beats: all are WRITEs, one for each piece, and carry the pieces. -/
theorem mapM_beatInstr_eq_some {chunks : List (List Byte)} {is : List Instr} (h : chunks.mapM beatInstr = some is) :
    (∀ i ∈ is, isWrite i = true) ∧ is.flatMap beatBytes = chunks.flatten ∧ is.length = chunks.length := by
  induction chunks generalizing is with
  | nil => simp_all
  | cons d chunks ih =>
    obtain ⟨i, hi, js, hjs, rfl⟩ :
        ∃ i, beatInstr d = some i ∧ ∃ js, chunks.mapM beatInstr = some js ∧ i :: js = is := by
      simpa [List.mapM_cons, Option.bind_eq_some_iff] using h
    obtain ⟨hwrite, hbytes⟩ := beatInstr_eq_some hi
    obtain ⟨hwrites, hflat, hlen⟩ := ih hjs
    simp_all

/-- Settles O39, by induction on the pieces: each beat is a write, and two writes are one. -/
theorem chunkingDoesNotMatter : Obligations.ChunkingDoesNotMatter := by
  intro chunks is s hinit hclen hbeats
  obtain ⟨hwrites, hbytes, hlen⟩ := mapM_beatInstr_eq_some hbeats
  rw [execAll_writes hwrites hinit hclen, hbytes, hlen, wrote]

theorem isWrite_of_mem_writeN {B : List Byte} : ∀ i ∈ writeN B, isWrite i = true := by
  induction B using writeN.induct <;> simp_all [writeN, isWrite]

theorem writeN_length (B : List Byte) : (writeN B).length = (B.length + 3) / 4 := by
  induction B using writeN.induct <;> simp_all [writeN]
  omega

theorem writeN_flatMap_beatBytes (B : List Byte) : (writeN B).flatMap beatBytes = B := by
  induction B using writeN.induct <;> simp_all [writeN, beatBytes]

/-- R160: one WRITE4 for each whole block. -/
theorem writeN_getElem?_of_lt {B : List Byte} {k : Nat} (hk : k < B.length / 4) :
    ∃ d0 d1 d2 d3, (writeN B)[k]? = some (.write4 d0 d1 d2 d3) := by
  induction B using writeN.induct generalizing k with
  | case1 d0 d1 d2 d3 rest ih =>
    cases k with
    | zero => exact ⟨d0, d1, d2, d3, rfl⟩
    | succ k => exact ih (by simp only [List.length_cons] at hk; omega)
  | case2 => simp at hk
  | case3 => simp at hk
  | case4 => simp at hk
  | case5 => simp at hk

theorem execAll_writeN (B : List Byte) {s : State} (hinit : s.init = true) (hclen : s.clen ≤ 3) :
    execAll (writeN B) s = .next (wrote B (writeN B).length s) := by
  rw [execAll_writes isWrite_of_mem_writeN hinit hclen, writeN_flatMap_beatBytes]

/-- Settles O40: the expansion is a sequence of beats that carry the bytes. -/
theorem writeNIsTheWriteOfAnyLength : Obligations.WriteNIsTheWriteOfAnyLength :=
  ⟨fun B => ⟨writeN_length B, writeN_flatMap_beatBytes B, fun _ => writeN_getElem?_of_lt⟩,
    fun B _ => execAll_writeN B⟩

end Sys2Proof.Writes
end

section
/-! PROOFS. The datapath of 40_datapath.md: little-endian assembly (R100), rotation (R101), the block round (R108), and
the functions the spec derives to be bijections (R104, R107, R108, R111, R169). -/

namespace Sys2Proof.DatapathFacts
open Sys2Proof Sys2Proof.Machine Function

/-! ## Little-endian assembly (R100) -/

/-- A block word is the payload whose lanes are the block's bytes. -/
theorem le32_eq_lanes (b0 b1 b2 b3 : Byte) : le32 b0 b1 b2 b3 = lanes b0 b1 b2 b3 := by
  ext i hi
  grind [le32, lanes]

/-- Settles O20: the lanes of a payload are its bytes, and it is the payload of its lanes. -/
theorem littleEndianAssemblyIsABijection : Obligations.LittleEndianAssemblyIsABijection := by
  refine ⟨fun b0 b1 b2 b3 => ?_, fun w => ⟨lane w 0, lane w 1, lane w 2, lane w 3, ?_⟩⟩
  · rw [le32_eq_lanes]
    exact ⟨lane_zero_lanes .., lane_one_lanes .., lane_two_lanes .., lane_three_lanes ..⟩
  · rw [le32_eq_lanes, UniqueEncoding.lanes_lane]

/-! ## Rotation (R101) -/

theorem rotl32_eq_rotateLeft (x : Word) (r : Nat) : rotl32 x r = x.rotateLeft r := rfl

/-- R101, for every amount. -/
theorem rotl32_getLsbD (x : Word) {r i : Nat} (hr : r < 32) (hi : i < 32) :
    (rotl32 x r).getLsbD ((i + r) % 32) = x.getLsbD i := by
  rw [rotl32_eq_rotateLeft, BitVec.getLsbD_rotateLeft_of_le hr]
  rcases Nat.lt_or_ge (i + r) 32 with hstay | hwrap
  · have hlow : ¬ i + r < r := by omega
    simp [Nat.mod_eq_of_lt hstay, hlow, hstay]
  · have hmod : (i + r) % 32 = i + r - 32 := by omega
    have hlow : i + r - 32 < r := by omega
    have hbit : 32 - r + (i + r - 32) = i := by omega
    simp [hmod, hlow, hbit]

/-- Settles O21. -/
theorem rotateMovesEveryBit : Obligations.RotateMovesEveryBit :=
  fun x _ _ _ hr hi => rotl32_getLsbD x (Nat.lt_succ_of_le hr) hi

/-! ## Bijections -/

/-- No bit is lost in a rotation. -/
theorem rotl32_bijective {r : Nat} (hr : r < 32) : Bijective fun x => rotl32 x r := by
  refine Finite.injective_iff_bijective.mp fun x y h => ?_
  apply BitVec.eq_of_getLsbD_eq
  intro i hi
  rw [← rotl32_getLsbD x hr hi, ← rotl32_getLsbD y hr hi]
  exact congrArg (fun z : Word => z.getLsbD ((i + r) % 32)) h

/-- Multiplication by a constant that has an inverse modulo 2^32. -/
theorem mul32_bijective {c d : Word} (h : d * c = 1) : Bijective (mul32 c) := by
  refine bijective_iff_has_inverse.mpr ⟨mul32 d, fun x => ?_, fun x => ?_⟩
  · rw [mul32, mul32, ← BitVec.mul_assoc, h, one_mul]
  · rw [mul32, mul32, ← BitVec.mul_assoc, BitVec.mul_comm c, h, one_mul]

theorem mulC1_bijective : Bijective (mul32 mulC1) := mul32_bijective (d := 0xDEE13BB1) (by decide)

theorem mulC2_bijective : Bijective (mul32 mulC2) := mul32_bijective (d := 0x56ED309B) (by decide)

theorem postM_bijective : Bijective (mul32 postM) := mul32_bijective (d := 0xCCCCCCCD) (by decide)

theorem mulF1_bijective : Bijective (mul32 mulF1) := mul32_bijective (d := 0xA5CB9243) (by decide)

theorem mulF2_bijective : Bijective (mul32 mulF2) := mul32_bijective (d := 0x7ED1B41D) (by decide)

theorem xor_left_bijective (c : Word) : Bijective fun x => c ^^^ x :=
  Involutive.bijective fun x => by simp

theorem xor_right_bijective (c : Word) : Bijective fun x => x ^^^ c :=
  Involutive.bijective fun x => by simp

theorem xorShift_xorShift (h : Word) (s : Nat) : xorShift (xorShift h s) s = xorShift h (s + s) := by
  simp only [xorShift, BitVec.ushiftRight_xor_distrib, BitVec.shiftRight_add]
  rw [BitVec.xor_assoc, ← BitVec.xor_assoc (h >>> s)]
  simp

theorem xorShift_of_ge {s : Nat} (hs : 32 ≤ s) (h : Word) : xorShift h s = h := by
  simp [xorShift, BitVec.ushiftRight_eq_zero hs]

/-- Doubling the shift twice pushes every bit out, so `xorShift` undoes itself in four rounds. -/
theorem xorShift_bijective {s : Nat} (hs : 8 ≤ s) : Bijective fun h => xorShift h s := by
  have hround : ∀ h, xorShift (xorShift (xorShift (xorShift h s) s) s) s = h := fun h => by
    rw [xorShift_xorShift, xorShift_xorShift, xorShift_xorShift, xorShift_of_ge (by omega)]
  exact bijective_iff_has_inverse.mpr ⟨fun h => xorShift (xorShift (xorShift h s) s) s, hround, hround⟩

theorem scramble_bijective : Bijective scramble :=
  mulC2_bijective.comp ((rotl32_bijective (by decide)).comp mulC1_bijective)

theorem postMix_bijective : Bijective postMix :=
  (AddGroup.addLeft_bijective postN).comp (postM_bijective.comp (rotl32_bijective (by decide)))

theorem fmix32_bijective : Bijective fmix32 :=
  (xorShift_bijective (by decide)).comp (mulF2_bijective.comp ((xorShift_bijective (by decide)).comp
    (mulF1_bijective.comp (xorShift_bijective (by decide)))))

theorem blockRound_hash_bijective (w : Word) : Bijective fun hash => blockRound hash w :=
  postMix_bijective.comp (xor_right_bijective (scramble w))

theorem blockRound_word_bijective (hash : Word) : Bijective (blockRound hash) :=
  postMix_bijective.comp ((xor_left_bijective hash).comp scramble_bijective)

/-- Settles O23: each function is a composition of rotations, xors, additions of a constant and multiplications by an
odd one. -/
theorem mixingFunctionsAreBijections : Obligations.MixingFunctionsAreBijections :=
  ⟨scramble_bijective, postMix_bijective, fmix32_bijective, blockRound_hash_bijective, blockRound_word_bijective⟩

/-- R113: absorbing blocks is a bijection of the hash. -/
theorem absorb_bijective (B : List Byte) : Bijective fun h => absorb h B := by
  unfold absorb
  induction blockWords B with
  | nil => exact bijective_id
  | cons w ws ih => exact ih.comp (blockRound_hash_bijective w)

theorem finalize32_bijective (len : DWord) (carry : List Byte) : Bijective fun hash => finalize32 hash len carry :=
  fmix32_bijective.comp ((xor_right_bijective _).comp (xor_right_bijective (scramble (tailWord carry))))

/-- Settles O46: absorbing the blocks and finalizing are bijections of the hash. -/
theorem differentSeedsNeverCollide : Obligations.DifferentSeedsNeverCollide :=
  fun _ => (finalize32_bijective _ _).comp (absorb_bijective _)

/-! ## Formulas written out -/

/-- Settles O22: the multiplications and the sum of R108 have their constant second. -/
theorem blockRoundWrittenOut : Obligations.BlockRoundWrittenOut := by
  intro hash w
  simp only [blockRound, mixBlock, scramble, postMix, mul32, BitVec.mul_comm mulC1, BitVec.mul_comm mulC2,
    BitVec.mul_comm postM, BitVec.add_comm postN]
  rfl

theorem tailFold_nil (h : Word) : tailFold h [] = h := by
  rw [tailFold, TailWord.tailWordIsZeroFilled.1]
  exact mixBlock_zero h

/-- Settles O25: the tail word of an empty carry is 0, whose scramble is 0. -/
theorem tailFoldOfNothingIsTheIdentity : Obligations.TailFoldOfNothingIsTheIdentity := by
  refine ⟨tailFold_nil, fun h len carry => ?_⟩
  split_ifs with hcarry
  · rw [hcarry, finalize32, tailFold_nil]
  · rfl

end Sys2Proof.DatapathFacts
end

section
/-! PROOFS. The WRITE forms of 41_commands.md: their tables (R137 to R140), the sequencer's control (R142) and the byte
routing (R143). -/

namespace Sys2Proof.WriteForms
open Sys2Proof Sys2Proof.Machine Sys2Proof.Commands Sys2Proof.Writes Sys2Proof.Encoding Sys2Proof.DatapathFacts

/-! ## One beat, whether it completes a block or not (R135) -/

/-- The working buffer holds a whole block: the hash takes it, the carry keeps the rest. -/
theorem exec_write_fires {s : State} {i : Instr} (hinit : s.init = true) (hwrite : isWrite i = true)
    {b0 b1 b2 b3 : Byte} {rest : List Byte} (hbuffer : s.carry ++ beatBytes i = b0 :: b1 :: b2 :: b3 :: rest) :
    exec i s =
      .next { s with hash := blockRound s.hash (le32 b0 b1 b2 b3), carry := rest,
                     len := s.len + BitVec.ofNat 64 (beatBytes i).length, responses := s.responses ++ [⟨.ok, 0⟩] } := by
  have hfires : 4 ≤ s.carry.length + (beatBytes i).length := by simp [← List.length_append, hbuffer]
  rw [exec_write hinit hwrite]
  simp [writeBeat, appendBeat, respond, fires, workingBuffer, hfires, hbuffer, blockWord, le32Seq]

/-- The working buffer holds less than a block and becomes the carry. -/
theorem exec_write_holds {s : State} {i : Instr} (hinit : s.init = true) (hwrite : isWrite i = true) {D : List Byte}
    (hbuffer : s.carry ++ beatBytes i = D) (hD : D.length < 4) :
    exec i s =
      .next { s with carry := D, len := s.len + BitVec.ofNat 64 (beatBytes i).length,
                     responses := s.responses ++ [⟨.ok, 0⟩] } := by
  have hfires : ¬ 4 ≤ s.carry.length + (beatBytes i).length := by
    rw [← List.length_append, hbuffer]
    exact Nat.not_le.mpr hD
  rw [exec_write hinit hwrite]
  simp [writeBeat, appendBeat, respond, fires, workingBuffer, hfires, hbuffer]

/-! ## The tables (R137 to R140) -/

/-- Settles O29: one byte completes a block only behind three carry bytes. -/
theorem oneByteWriteFollowsItsTable : Obligations.OneByteWriteFollowsItsTable :=
  ⟨fun _ => by simp [encode, header_lanes_eq_or], fun _ _ _ _ _ hinit =>
    ⟨fun h => exec_write_holds hinit rfl (by rw [h]; rfl) (by simp),
      fun h => exec_write_holds hinit rfl (by rw [h]; rfl) (by simp),
      fun h => exec_write_holds hinit rfl (by rw [h]; rfl) (by simp),
      fun h => exec_write_fires hinit rfl (by rw [h]; rfl)⟩⟩

/-- Settles O30: two bytes complete a block behind two or three carry bytes. -/
theorem twoByteWriteFollowsItsTable : Obligations.TwoByteWriteFollowsItsTable :=
  ⟨fun _ _ => by simp [encode, header_lanes_eq_or], fun _ _ _ _ _ _ hinit =>
    ⟨fun h => exec_write_holds hinit rfl (by rw [h]; rfl) (by simp),
      fun h => exec_write_holds hinit rfl (by rw [h]; rfl) (by simp),
      fun h => exec_write_fires hinit rfl (by rw [h]; rfl),
      fun h => exec_write_fires hinit rfl (by rw [h]; rfl)⟩⟩

/-- Settles O31: three bytes complete a block behind any carry byte. -/
theorem threeByteWriteFollowsItsTable : Obligations.ThreeByteWriteFollowsItsTable :=
  ⟨fun _ _ _ => by simp [encode, header_lanes_eq_or], fun _ _ _ _ _ _ _ hinit =>
    ⟨fun h => exec_write_holds hinit rfl (by rw [h]; rfl) (by simp),
      fun h => exec_write_fires hinit rfl (by rw [h]; rfl),
      fun h => exec_write_fires hinit rfl (by rw [h]; rfl),
      fun h => exec_write_fires hinit rfl (by rw [h]; rfl)⟩⟩

/-- Settles O32: four bytes always complete a block; with no carry it is the payload itself. -/
theorem fourByteWriteFollowsItsTable : Obligations.FourByteWriteFollowsItsTable :=
  ⟨fun _ _ _ _ => ⟨by simp [encode, header_lanes_eq_or], by simp [encode, le32_eq_lanes]⟩,
    fun _ _ _ _ _ _ _ _ hinit =>
    ⟨fun h => exec_write_fires hinit rfl (by rw [h]; rfl),
      fun h => exec_write_fires hinit rfl (by rw [h]; rfl),
      fun h => exec_write_fires hinit rfl (by rw [h]; rfl),
      fun h => exec_write_fires hinit rfl (by rw [h]; rfl)⟩⟩

/-! ## The sequencer's control (R142) -/

theorem writeBeat_hash_of_not_fires {s : State} {d : List Byte} (h : s.clen + d.length < 4) :
    (writeBeat d s).hash = s.hash := by
  rw [writeBeat_hash, appendBeat_hash, if_neg (mt (fires_iff _ _).mp (Nat.not_le.mpr h))]

/-- Settles O34: the counts alone decide `fires`, and with it the hash and the next carry count. -/
theorem sequencerControlFollowsTheCounts : Obligations.SequencerControlFollowsTheCounts := by
  refine ⟨fun s i hinit hclen hwrite => ⟨_, exec_write hinit hwrite, ?_, fun hfire => ?_,
    writeBeat_hash_of_not_fires⟩, fun s seed => ⟨_, exec_new seed s, rfl⟩,
    fun s hinit => ⟨_, exec_of_init hinit .reset, rfl⟩, fun s hinit => ⟨_, exec_finish hinit, rfl, rfl⟩⟩
  · exact appendBeat_carry_length hclen (beatBytes_length_le i)
  · rw [writeBeat_hash, appendBeat_hash, if_pos ((fires_iff _ _).mpr hfire)]
    rfl

/-! ## The byte routing (R143) -/

/-- R143: byte position `j` of a block word holds the buffer's byte `j`. -/
theorem blockWord_lane {D : List Byte} {j : Nat} {b : Byte} (hj : j < 4) (hb : D[j]? = some b) :
    (blockWord D).extractLsb' (8 * j) 8 = b := by
  have hlane : (blockWord D).extractLsb' (8 * j) 8 = (D.take 4).getD j 0 := by
    unfold blockWord le32Seq
    rw [le32_eq_lanes]
    interval_cases j
    · exact lane_zero_lanes ..
    · exact lane_one_lanes ..
    · exact lane_two_lanes ..
    · exact lane_three_lanes ..
  rw [hlane, List.getD_eq_getElem?_getD, List.getElem?_take_of_lt hj, hb, Option.getD_some]

/-- Carry byte `j` stands at position `j` of the working buffer. -/
theorem workingBuffer_carry {carry d : List Byte} {j : Nat} {b : Byte} (h : carry[j]? = some b) :
    (carry ++ d)[j]? = some b := by
  rw [List.getElem?_append_left (List.getElem?_eq_some_iff.mp h).1, h]

/-- Payload byte `k` stands at position `clen + k` of the working buffer. -/
theorem workingBuffer_payload {carry d : List Byte} {k : Nat} {b : Byte} (h : d[k]? = some b) :
    (carry ++ d)[carry.length + k]? = some b := by
  rw [List.getElem?_append_right (Nat.le_add_right _ _), Nat.add_sub_cancel_left, h]

/-- Settles O35: the working buffer's first four bytes are the block word's lanes, the others the new carry. -/
theorem payloadBytesLandAtTheirLane : Obligations.PayloadBytesLandAtTheirLane := by
  intro s i hinit hclen hwrite
  have hbytes := beatBytes_length_le i
  refine ⟨_, exec_write hinit hwrite, fun hfire => ?_, fun hhold => ?_⟩
  · simp only [writeBeat_hash, writeBeat_carry, appendBeat_hash, appendBeat_carry, (fires_iff _ _).mpr hfire, if_true,
      workingBuffer]
    refine ⟨_, rfl, fun j b hb => ?_, fun k b hb hk => ?_, fun k b hb hk => ?_⟩
    · have hj : j < s.carry.length := (List.getElem?_eq_some_iff.mp hb).1
      exact blockWord_lane ((hj.trans_le hclen).trans (by decide)) (workingBuffer_carry hb)
    · rw [Nat.mod_eq_of_lt hk]
      exact blockWord_lane hk (workingBuffer_payload hb)
    · have hlt : k < (beatBytes i).length := (List.getElem?_eq_some_iff.mp hb).1
      have hpos : 4 + (s.clen + k) % 4 = s.clen + k := by
        rw [clen_eq] at *
        omega
      rw [List.getElem?_drop, hpos]
      exact workingBuffer_payload hb
  · have hfire : fires s.clen (beatBytes i).length = false := by simpa [fires] using hhold
    simp only [writeBeat_carry, appendBeat_carry, hfire, workingBuffer]
    refine ⟨fun j b hb => workingBuffer_carry hb, fun k b hb => ?_⟩
    have hlt : k < (beatBytes i).length := (List.getElem?_eq_some_iff.mp hb).1
    rw [Nat.mod_eq_of_lt (by omega)]
    exact workingBuffer_payload hb

end Sys2Proof.WriteForms
end

section
/-! PROOFS. What one step and one command do: the next state always exists, a command answers once (R130, R210), what
each command leaves (R144), which registers change and why (R24, R25, R26), and runs of steps over command words (R60). -/

namespace Sys2Proof.Steps
open Sys2Proof Sys2Proof.Machine Sys2Proof.UniqueEncoding Sys2Proof.Commands Sys2Proof.Writes Sys2Proof.WriteForms

/-! ## One step for each event -/

/-- Settles O1. -/
theorem resetLeavesCoreUninitialised : Obligations.ResetLeavesCoreUninitialised := ⟨rfl, rfl, rfl, rfl⟩

/-- Settles O2. -/
theorem stepRunsTheDecodedCommand : Obligations.StepRunsTheDecodedCommand := fun _ _ _ _ => step_legal

theorem step_idle {s : State} (h : s.events = []) : step s = .next s := by simp [step, h]

/-- Settles O7. -/
theorem nothingChangesWithoutAnEvent : Obligations.NothingChangesWithoutAnEvent := fun _ => step_idle

theorem deliverResponse_cons {s : State} {r : Response} {rs : List Response} (h : s.responses = r :: rs) :
    deliverResponse s = { s with responses := rs, delivered := s.delivered ++ [r] } := by simp [deliverResponse, h]

theorem deliverResponse_nil {s : State} (h : s.responses = []) : deliverResponse s = s := by simp [deliverResponse, h]

/-- Settles O8: the list of waiting responses is a queue. -/
theorem oldestResponseIsDelivered : Obligations.OldestResponseIsDelivered := by
  refine fun s rest hevents => ⟨fun r rs hresponses => ?_, fun hresponses => ?_⟩
  · rw [step_takeResponse hevents]
    exact congrArg _ (deliverResponse_cons hresponses)
  · rw [step_takeResponse hevents]
    exact congrArg _ (deliverResponse_nil hresponses)

/-- Settles O9: the register holds three of the free bytes at most. -/
theorem hardwareResetForgetsTheContext : Obligations.HardwareResetForgetsTheContext :=
  fun _ _ hevents => ⟨_, step_hardwareReset hevents, rfl, rfl, rfl, rfl, List.length_take_le _ _⟩

/-! ## One command, one response -/

theorem exec_total (i : Instr) (s : State) : ∃ t, exec i s = .next t := by
  cases hcheck : failsInitCheck i s with
  | true => exact ⟨_, (exec_eq_perform i s).trans (perform_fault _ hcheck)⟩
  | false => exact ⟨_, (exec_eq_perform i s).trans (perform_ok _ hcheck)⟩

/-- No command touches the later events, what was delivered or the count of resets; it answers once (R144). -/
theorem exec_frame {i : Instr} {s t : State} (h : exec i s = .next t) :
    t.events = s.events ∧ t.delivered = s.delivered ∧ t.resets = s.resets ∧ ∃ r, t.responses = s.responses ++ [r] := by
  rcases exec_cases h with ⟨_, _, rfl⟩ | ⟨_, rfl⟩
  · exact ⟨rfl, rfl, rfl, _, rfl⟩
  · exact ⟨effectOf_events .., effectOf_delivered .., effectOf_resets .., _, effectOf_responses ..⟩

theorem step_command {s : State} {rest : List HostEvent} {cw : CmdWord} (hevents : s.events = .command cw :: rest) :
    ∃ t r, step s = .next t ∧ t.events = rest ∧ t.responses = s.responses ++ [r] ∧ t.delivered = s.delivered ∧
      t.resets = s.resets := by
  cases hdecode : decode cw with
  | error reason => exact ⟨_, _, step_illegal hevents hdecode, rfl, rfl, rfl, rfl⟩
  | ok i =>
    obtain ⟨t, hexec⟩ := exec_total i { s with events := rest }
    obtain ⟨hev, hdel, hres, r, hresp⟩ := exec_frame hexec
    exact ⟨t, r, (step_legal hevents hdecode).trans hexec, hev, hresp, hdel, hres⟩

theorem step_total (s : State) : ∃ t, step s = .next t := by
  rcases hevents : s.events with _ | ⟨⟨cw⟩ | _ | _, rest⟩
  · exact ⟨_, step_idle hevents⟩
  · obtain ⟨t, _, hstep, _⟩ := step_command hevents
    exact ⟨t, hstep⟩
  · exact ⟨_, step_takeResponse hevents⟩
  · exact ⟨_, step_hardwareReset hevents⟩

/-- Settles O5, event by event. -/
theorem everyCommandGetsExactlyOneResponse : Obligations.EveryCommandGetsExactlyOneResponse :=
  ⟨step_total, fun _ _ _ => step_command⟩

/-! ## Runs of steps -/

theorem run_succ_of_step (M : Host.Core) {s t : M.State} (h : M.step s = .next t) (k : Nat) :
    M.run (k + 1) s = M.run k t := by simp [Host.Core.run, h]

theorem run_succ {s t : State} (h : step s = .next t) (k : Nat) : core.run (k + 1) s = core.run k t :=
  run_succ_of_step core h k

/-- Settles O6, by induction on the words: the first step answers the first word, the later ones follow from the state
it leaves. -/
theorem responsesFollowTheCommandOrder : Obligations.ResponsesFollowTheCommandOrder := by
  intro ws rest
  induction ws with
  | nil => exact fun s hevents => ⟨s, [], rfl, hevents, rfl, rfl, by simp, by simp⟩
  | cons w ws ih =>
    intro s hevents
    obtain ⟨s', r, hstep, hevents', hresponses, hdelivered, _⟩ := step_command hevents
    obtain ⟨t, rs, hrun, ht, htd, hlen, htr, hall⟩ := ih s' hevents'
    refine ⟨t, r :: rs, (run_succ hstep _).trans hrun, ht, htd.trans hdelivered, by simp [hlen],
      by simp [htr, hresponses], fun k r' hk => ?_⟩
    cases k with
    | zero =>
      obtain rfl : r = r' := by simpa using hk
      exact ⟨s, s', rfl, hstep, hresponses⟩
    | succ k =>
      obtain ⟨u, v, hu, hv⟩ := hall k r' hk
      exact ⟨u, v, (run_succ hstep k).trans hu, hv⟩

/-- Settles O10: the reset clears `init`, so of the commands only NEW passes the check. -/
theorem afterHardwareResetOnlyNewCompletes : Obligations.AfterHardwareResetOnlyNewCompletes := by
  intro s cw rest i hevents hdecode
  obtain ⟨t, hexec⟩ := exec_total i (hardwareReset { s with events := rest })
  have hrun : core.run 2 s = .next t := by
    rw [run_succ (step_hardwareReset hevents), run_succ ((step_legal rfl hdecode).trans hexec)]
    rfl
  refine ⟨t, hrun, (exec_frame hexec).1, fun hnew => ?_, fun seed hi => ?_⟩
  · rw [exec_of_not_init hnew rfl, encode_of_decode hdecode] at hexec
    cases hexec
    exact ⟨rfl, rfl⟩
  · subst hi
    rw [exec_new] at hexec
    cases hexec
    exact ⟨rfl, rfl, rfl, rfl, rfl, rfl⟩

/-! ## The registers after a command -/

/-- The four kinds of commands (R145). -/
theorem instr_kinds (i : Instr) : (∃ seed, i = .new seed) ∨ isWrite i = true ∨ i = .finish ∨ i = .reset := by
  cases i <;> simp [isWrite]

theorem isNew_of_isWrite {i : Instr} (h : isWrite i = true) : isNew i ≠ true := by
  cases i <;> simp_all [isNew, isWrite]

theorem effectOf_finish_sameRegisters (s : State) : SameRegisters s (effectOf .finish s) := ⟨rfl, rfl, rfl, rfl, rfl⟩

theorem raiseFault_sameRegisters (f : CommandFault) (cw : CmdWord) (s : State) : SameRegisters s (raiseFault f cw s) :=
  ⟨rfl, rfl, rfl, rfl, rfl⟩

theorem effectOf_write0_sameRegisters {s : State} (hclen : s.clen ≤ 3) : SameRegisters s (effectOf .write0 s) := by
  rw [effectOf, writeBeat, appendBeat_nil hclen]
  exact ⟨rfl, rfl, rfl, rfl, rfl⟩

/-- Settles O36: a command either faults, which writes no register, or has its effect. -/
theorem commandFrames : Obligations.CommandFrames := by
  refine ⟨fun s t i => exec_frame, fun s t h => ?_, fun s t i hwrite h => ?_, fun s t h hclen => ?_, fun s t h => ?_,
    fun s t i hnew hinit h => ?_, fun s t cw rest reason hevents hdecode h => ?_⟩
  · rcases exec_cases h with ⟨_, _, rfl⟩ | ⟨_, rfl⟩
    · exact ⟨rfl, rfl⟩
    · exact ⟨rfl, rfl⟩
  · rcases exec_cases h with ⟨_, _, rfl⟩ | ⟨_, rfl⟩
    · exact ⟨rfl, rfl, fun _ => rfl⟩
    · rw [effectOf_write hwrite]
      exact ⟨rfl, rfl, writeBeat_hash_of_not_fires⟩
  · rcases exec_cases h with ⟨_, _, rfl⟩ | ⟨_, rfl⟩
    · exact raiseFault_sameRegisters ..
    · exact effectOf_write0_sameRegisters hclen
  · rcases exec_cases h with ⟨_, _, rfl⟩ | ⟨_, rfl⟩
    · exact raiseFault_sameRegisters ..
    · exact effectOf_finish_sameRegisters s
  · rw [exec_of_not_init hnew hinit] at h
    cases h
    exact raiseFault_sameRegisters ..
  · rw [step_illegal hevents hdecode] at h
    cases h
    exact ⟨rfl, rfl, rfl, rfl, rfl⟩

/-! ## The registers after a step -/

/-- All that a step can do to the registers: leave them, when no command completes; forget them; or a command's
effect. -/
theorem step_register_cases {s t : State} (h : step s = .next t) :
    (SameRegisters s t ∧ (s.init = true → ∀ cw rest i, s.events = .command cw :: rest → decode cw ≠ .ok i)) ∨
    (∃ rest, s.events = .hardwareReset :: rest ∧ t = hardwareReset { s with events := rest }) ∨
    (∃ cw rest i, s.events = .command cw :: rest ∧ decode cw = .ok i ∧ (isNew i = true ∨ s.init = true) ∧
      t = effectOf i { s with events := rest }) := by
  rcases step_cases h with ⟨he, rfl⟩ | ⟨rest, he, rfl⟩ | ⟨rest, he, rfl⟩ | ⟨cw, rest, reason, he, hd, rfl⟩ |
    ⟨cw, rest, i, he, hd, hexec⟩
  · exact .inl ⟨⟨rfl, rfl, rfl, rfl, rfl⟩, by simp [he]⟩
  · exact .inl ⟨by constructor <;> simp, by simp [he]⟩
  · exact .inr (.inl ⟨rest, he, rfl⟩)
  · refine .inl ⟨⟨rfl, rfl, rfl, rfl, rfl⟩, fun _ cw' rest' i he' => ?_⟩
    cases he.symm.trans he'
    simp [hd]
  · rcases exec_cases hexec with ⟨_, hinit, rfl⟩ | ⟨hcheck, rfl⟩
    · exact .inl ⟨⟨rfl, rfl, rfl, rfl, rfl⟩, fun h1 => absurd (h1.symm.trans hinit) (by decide)⟩
    · exact .inr (.inr ⟨cw, rest, i, he, hd, hcheck, rfl⟩)

/-- Settles O49: of the effects only NEW's writes the seed, with its operand. -/
theorem onlyNewWritesTheSeed : Obligations.OnlyNewWritesTheSeed := by
  intro s t hstep hseed
  rcases step_register_cases hstep with ⟨hsame, _⟩ | ⟨rest, he, _⟩ | ⟨cw, rest, i, he, hd, _, rfl⟩
  · exact absurd hsame.seed_eq.symm hseed
  · exact .inr ⟨rest, he⟩
  · cases i with
    | new seed => exact .inl ⟨cw, rest, he, hd⟩
    | _ => exact absurd rfl hseed

/-- Settles O50: of the effects only NEW's sets `init`, and none clears it. -/
theorem initChangesOnlyByNewAndHardwareReset : Obligations.InitChangesOnlyByNewAndHardwareReset := by
  intro s t hstep
  rcases step_register_cases hstep with ⟨hsame, _⟩ | ⟨rest, he, rfl⟩ | ⟨cw, rest, i, he, hd, hcheck, rfl⟩
  · rw [← hsame.init_eq]
    exact ⟨fun h0 h1 => absurd (h0.symm.trans h1) (by decide), fun h1 h0 => absurd (h0.symm.trans h1) (by decide)⟩
  · exact ⟨nofun, fun _ _ => ⟨rest, he⟩⟩
  · refine ⟨fun h0 _ => ?_, fun h1 h0 => ?_⟩
    · cases i with
      | new seed => exact ⟨cw, rest, seed, he, hd⟩
      | _ => simp [isNew, h0] at hcheck
    · simp [h1] at h0

/-! ## The carry invariant (R26) -/

/-- Settles O48. -/
theorem carryInvariantHoldsAtReset : Obligations.CarryInvariantHoldsAtReset := ⟨Nat.zero_le 3, nofun⟩

theorem effectOf_clen_le {s : State} (hs : s.clen ≤ 3) (i : Instr) : (effectOf i s).clen ≤ 3 := by
  rcases instr_kinds i with ⟨seed, rfl⟩ | hwrite | rfl | rfl
  · exact Nat.zero_le 3
  · rw [effectOf_write hwrite, clen_eq, writeBeat_carry, appendBeat_carry_length hs (beatBytes_length_le i)]
    omega
  · exact hs
  · exact Nat.zero_le 3

/-- R27: the length wraps at a multiple of 4. -/
theorem len_add_mod_four (len : DWord) (n : Nat) : (len + BitVec.ofNat 64 n).toNat % 4 = (len.toNat + n) % 4 := by
  rw [BitVec.toNat_add, BitVec.toNat_ofNat]
  omega

theorem effectOf_carryInvariant {s : State} (hs : CarryInvariant s) (i : Instr)
    (hcheck : isNew i = true ∨ s.init = true) : CarryInvariant (effectOf i s) := by
  refine ⟨effectOf_clen_le hs.clen_le_three i, fun _ => ?_⟩
  rcases instr_kinds i with ⟨seed, rfl⟩ | hwrite | rfl | rfl
  · rfl
  · have hinit : s.init = true := hcheck.resolve_left (isNew_of_isWrite hwrite)
    have hlen := hs.clen_eq_len_mod_four hinit
    rw [effectOf_write hwrite, clen_eq, writeBeat_carry,
      appendBeat_carry_length hs.clen_le_three (beatBytes_length_le i), writeBeat_len, appendBeat_len, len_add_mod_four]
    rw [clen_eq] at hlen
    omega
  · exact hs.clen_eq_len_mod_four (hcheck.resolve_left nofun)
  · rfl

/-- Settles O47: a beat moves the carry count and the length by the same number of bytes modulo 4. -/
theorem everyStepKeepsTheCarryInvariant : Obligations.EveryStepKeepsTheCarryInvariant := by
  intro s t hs hstep
  rcases step_register_cases hstep with ⟨hsame, _⟩ | ⟨rest, _, rfl⟩ | ⟨cw, rest, i, _, _, hcheck, rfl⟩
  · constructor
    · simpa [← hsame.carry_eq] using hs.clen_le_three
    · simpa [← hsame.carry_eq, ← hsame.len_eq, ← hsame.init_eq] using hs.clen_eq_len_mod_four
  · exact ⟨List.length_take_le _ _, nofun⟩
  · exact effectOf_carryInvariant (s := { s with events := rest }) ⟨hs.clen_le_three, hs.clen_eq_len_mod_four⟩ i hcheck

end Sys2Proof.Steps
end

section
/-! PROOFS. The ghost stream of 10_state.md R28: the registers of an initialised core are those of one write of its
stream to a fresh context; every step keeps that, and FINISH answers `hash_bytes` of the stream (R164, R170). -/

namespace Sys2Proof.Streams
open Sys2Proof Sys2Proof.Machine Sys2Proof.Commands Sys2Proof.Writes Sys2Proof.Steps

/-! ## A stream is one write to a fresh context -/

theorem represents_writeBytes {s : State} (hinit : s.init = true) (S : List Byte) :
    Represents (writeBytes S (startStream s.seed s)) S :=
  ⟨hinit, rfl, rfl, BitVec.zero_add _⟩

theorem eq_writeBytes_of_represents {s : State} {S : List Byte} (h : Represents s S) :
    s = writeBytes S (startStream s.seed s) := by
  simp [writeBytes, startStream, workingBuffer, ← h.hash_eq, ← h.carry_eq, ← h.len_eq]

/-- R28: only the registers matter. -/
theorem represents_of_sameRegisters {s t : State} {S : List Byte} (hs : Represents s S) (h : SameRegisters s t) :
    Represents t S :=
  ⟨h.init_eq ▸ hs.initialised, h.hash_eq ▸ h.seed_eq ▸ hs.hash_eq, h.carry_eq ▸ hs.carry_eq, h.len_eq ▸ hs.len_eq⟩

theorem represents_nil {s : State} (h : AtStreamStart s) : Represents s [] :=
  ⟨h.initialised, h.hash_eq.trans (absorb_nil _).symm, h.carry_eq, h.len_eq⟩

/-- R28 for a write of any length: the stream grows by its bytes (R161). -/
theorem represents_append {s : State} {S : List Byte} (h : Represents s S) (A : List Byte) :
    Represents (writeBytes A s) (S ++ A) := by
  have hwrite : writeBytes A s = writeBytes (S ++ A) (startStream s.seed s) := by
    rw [← writesConcatenate, ← eq_writeBytes_of_represents h]
  rw [hwrite]
  exact represents_writeBytes h.initialised _

theorem clen_le_of_represents {s : State} {S : List Byte} (h : Represents s S) : s.clen ≤ 3 := by
  rw [eq_writeBytes_of_represents h]
  exact writeBytes_carry_length_le ..

/-- R164: finalizing the registers of a stream is the reference function on the stream. -/
theorem finalHash_of_represents {s : State} {S : List Byte} (h : Represents s S) :
    finalHash s = hashBytes S s.seed := by
  rw [finalHash, h.hash_eq, h.len_eq, h.carry_eq, hashBytes]

theorem exec_finish_of_represents {s : State} {S : List Byte} (h : Represents s S) :
    exec .finish s = .next { s with responses := s.responses ++ [⟨.ok, (hashBytes S s.seed).zeroExtend 64⟩] } := by
  rw [exec_finish h.initialised, finalHash_of_represents h, hashData]

/-! ## Every command and every step keeps it (R26, R28) -/

theorem streamAfterCommand_write {i : Instr} (h : isWrite i = true) (S : List Byte) :
    streamAfterCommand i S = S ++ beatBytes i := by
  cases i <;> simp_all [isWrite, streamAfterCommand, beatBytes]

theorem effectOf_represents {s : State} {S : List Byte} (hs : s.init = true → Represents s S) {i : Instr}
    (hcheck : isNew i = true ∨ s.init = true) : Represents (effectOf i s) (streamAfterCommand i S) := by
  rcases instr_kinds i with ⟨seed, rfl⟩ | hwrite | rfl | rfl
  · exact represents_nil (effectOf_new_atStreamStart seed s)
  · have hrep := hs (hcheck.resolve_left (isNew_of_isWrite hwrite))
    rw [effectOf_write hwrite, streamAfterCommand_write hwrite, writeBeat,
      appendBeat_eq_writeBytes (clen_le_of_represents hrep) (beatBytes_length_le i)]
    exact represents_of_sameRegisters (represents_append hrep _) ⟨rfl, rfl, rfl, rfl, rfl⟩
  · exact represents_of_sameRegisters (hs (hcheck.resolve_left nofun)) (effectOf_finish_sameRegisters s)
  · exact represents_nil (effectOf_reset_atStreamStart (hcheck.resolve_left nofun))

theorem streamAfterStep_command {s : State} {cw : CmdWord} {rest : List HostEvent} {i : Instr}
    (he : s.events = .command cw :: rest) (hd : decode cw = .ok i) (S : List Byte) :
    streamAfterStep s S = streamAfterCommand i S := by simp [streamAfterStep, he, hd]

/-- R28: an event that is no legal word leaves the stream. -/
theorem streamAfterStep_of_no_command {s : State}
    (h : ∀ cw rest i, s.events = .command cw :: rest → decode cw ≠ .ok i) (S : List Byte) :
    streamAfterStep s S = S := by
  unfold streamAfterStep
  split
  · next cw rest he =>
    split
    · next i hd => exact absurd hd (h cw rest i he)
    · rfl
  · rfl

/-- Settles O44: a step leaves the registers and the stream, or forgets the context, or has a command's effect on
both. -/
theorem everyStepKeepsTheStream : Obligations.EveryStepKeepsTheStream := by
  intro s t S hs hstep hinit
  rcases step_register_cases hstep with ⟨hsame, hno⟩ | ⟨rest, _, rfl⟩ | ⟨cw, rest, i, he, hd, hcheck, rfl⟩
  · have hinit' : s.init = true := hsame.init_eq.trans hinit
    rw [streamAfterStep_of_no_command (hno hinit')]
    exact represents_of_sameRegisters (hs hinit') hsame
  · cases hinit
  · rw [streamAfterStep_command he hd]
    refine effectOf_represents (s := { s with events := rest }) (fun h => ?_) hcheck
    exact represents_of_sameRegisters (hs h) ⟨rfl, rfl, rfl, rfl, rfl⟩

/-! ## A whole stream (R170) -/

/-- The bytes an accepted word adds to the stream: a WRITE's. -/
def wordBytes (cw : CmdWord) : List Byte :=
  match decode cw with
  | .ok i => beatBytes i
  | .error _ => []

/-- A word that is neither NEW nor RESET. -/
def KeepsContext (cw : CmdWord) : Prop := decode cw ≠ .ok .reset ∧ ∀ seed, decode cw ≠ .ok (.new seed)

theorem streamAfterStep_of_keepsContext {s : State} {cw : CmdWord} {rest : List HostEvent}
    (he : s.events = .command cw :: rest) (hcw : KeepsContext cw) (S : List Byte) :
    streamAfterStep s S = S ++ wordBytes cw := by
  obtain ⟨hreset, hnew⟩ := hcw
  cases hd : decode cw with
  | error reason =>
    rw [streamAfterStep_of_no_command fun cw' rest' i he' => by cases he.symm.trans he'; simp [hd]]
    simp [wordBytes, hd]
  | ok i =>
    have hbytes : wordBytes cw = beatBytes i := by simp [wordBytes, hd]
    rw [streamAfterStep_command he hd, hbytes]
    rcases instr_kinds i with ⟨seed, rfl⟩ | hwrite | rfl | rfl
    · exact absurd hd (hnew seed)
    · exact streamAfterCommand_write hwrite S
    · exact (List.append_nil S).symm
    · exact absurd hd hreset

theorem step_of_keepsContext {s : State} {S : List Byte} {cw : CmdWord} {rest : List HostEvent} (hs : Represents s S)
    (he : s.events = .command cw :: rest) (hcw : KeepsContext cw) :
    ∃ t, step s = .next t ∧ t.events = rest ∧ t.seed = s.seed ∧ Represents t (S ++ wordBytes cw) := by
  obtain ⟨t, r, hstep, ht, _⟩ := step_command he
  obtain ⟨t', hstep', hinit⟩ := step_keeps_init hs.initialised (by simp [he])
  cases hstep.symm.trans hstep'
  have hrep := everyStepKeepsTheStream s t S (fun _ => hs) hstep hinit
  rw [streamAfterStep_of_keepsContext he hcw] at hrep
  refine ⟨t, hstep, ht, by_contra fun hseed => ?_, hrep⟩
  rcases onlyNewWritesTheSeed s t hstep hseed with ⟨cw', rest', he', hd⟩ | ⟨rest', he'⟩
  · cases he.symm.trans he'
    exact hcw.2 _ hd
  · cases he.symm.trans he'

theorem run_of_keepsContext {ws : List CmdWord} (hws : ∀ w ∈ ws, KeepsContext w) {rest : List HostEvent} {s : State}
    {S : List Byte} (hs : Represents s S) (he : s.events = ws.map HostEvent.command ++ rest) :
    ∃ t, core.run ws.length s = .next t ∧ t.seed = s.seed ∧ Represents t (S ++ ws.flatMap wordBytes) := by
  induction ws generalizing s S with
  | nil => exact ⟨s, rfl, rfl, by simpa using hs⟩
  | cons w ws ih =>
    obtain ⟨s', hstep, he', hseed, hs'⟩ := step_of_keepsContext hs he (hws w (by simp))
    obtain ⟨t, hrun, ht, hrep⟩ := ih (fun v hv => hws v (List.mem_cons_of_mem w hv)) hs' he'
    refine ⟨t, (run_succ hstep _).trans hrun, ht.trans hseed, ?_⟩
    rwa [List.flatMap_cons, ← List.append_assoc]

/-- Settles O45, by induction on the words. -/
theorem finishHashesTheWholeStream : Obligations.FinishHashesTheWholeStream := by
  intro ws rest s S hs he hws
  obtain ⟨t, hrun, hseed, hrep⟩ := run_of_keepsContext hws hs he
  refine ⟨t, _, hrun, rfl, hseed, hrep, ?_⟩
  rw [← hseed]
  exact exec_finish_of_represents hrep

/-! ## HASHB (R162, R164) -/

theorem execAll_cons {i : Instr} {s t : State} (h : exec i s = .next t) (is : List Instr) :
    execAll (i :: is) s = execAll is t := by rw [execAll, h]

theorem execAll_singleton (i : Instr) (s : State) : execAll [i] s = exec i s := by
  obtain ⟨t, ht⟩ := exec_total i s
  rw [execAll_cons ht, ht, execAll]

theorem execAll_append {is : List Instr} {s t : State} (h : execAll is s = .next t) (js : List Instr) :
    execAll (is ++ js) s = execAll js t := by
  induction is generalizing s with
  | nil =>
    cases h
    rfl
  | cons i is ih =>
    obtain ⟨u, hu⟩ := exec_total i s
    rw [execAll_cons hu] at h
    rw [List.cons_append, execAll_cons hu, ih h]

/-- Settles O43: NEW starts the empty stream, WRITEN makes it `B`, FINISH answers its hash. -/
theorem hashBIsTheOneShotFunction : Obligations.HashBIsTheOneShotFunction := by
  intro seed B s
  have hstart := represents_nil (effectOf_new_atStreamStart seed s)
  have hwritten : Represents (wrote B (writeN B).length (effectOf (.new seed) s)) B :=
    represents_of_sameRegisters (represents_append hstart B) ⟨rfl, rfl, rfl, rfl, rfl⟩
  have hrun : execAll (hashB seed B) s =
      exec .finish (wrote B (writeN B).length (effectOf (.new seed) s)) := by
    rw [hashB, List.cons_append, execAll_cons (exec_new seed s),
      execAll_append (execAll_writeN B hstart.initialised (clen_le_of_represents hstart)),
      execAll_singleton]
  refine ⟨_, hrun.trans (exec_finish_of_represents hwritten), rfl,
    represents_of_sameRegisters hwritten ⟨rfl, rfl, rfl, rfl, rfl⟩, ?_, ?_⟩
  · rw [List.replicate_succ, List.append_cons s.responses, ← writeN_length]
    rfl
  · simp [hashBResult]

/-- Settles O42: FINISH leaves the registers it reads. -/
theorem finishIsIdempotent : Obligations.FinishIsIdempotent := by
  intro s hinit
  refine ⟨⟨.ok, hashData (finalHash s)⟩, ?_, rfl⟩
  rw [execAll_cons (exec_finish hinit), execAll_singleton, exec_finish (by exact hinit)]
  simp [finalHash]

end Sys2Proof.Streams
end

section
/-! PROOFS. Runs: legal words after a NEW (R186), words and commands (R60, R76), and pairs of runs whose states stay
related: unspecified registers (R201), the high half of the length (R35), an empty write more (R166). -/

namespace Sys2Proof.Runs
open Sys2Proof Sys2Proof.Machine Sys2Proof.Commands Sys2Proof.Writes Sys2Proof.Steps Sys2Proof.Streams

/-! ## Legal words on an initialised core (R186) -/

theorem failsInitCheck_eq_false {i : Instr} {s : State} (h : isNew i = true ∨ s.init = true) :
    failsInitCheck i s = false := by
  rcases h with h | h <;> simp [failsInitCheck, h]

/-- A legal word that passes the `init` check is answered OK and leaves an initialised core. -/
theorem step_completes {s : State} {cw : CmdWord} {rest : List HostEvent} {i : Instr}
    (he : s.events = .command cw :: rest) (hd : decode cw = .ok i) (hcheck : isNew i = true ∨ s.init = true) :
    ∃ t r, step s = .next t ∧ t.init = true ∧ t.events = rest ∧ t.responses = s.responses ++ [r] ∧ r.status = .ok := by
  have hstep : step s = .next (effectOf i { s with events := rest }) := by
    rw [step_legal he hd, exec_eq_perform]
    exact perform_ok _ (failsInitCheck_eq_false hcheck)
  exact ⟨_, _, hstep, by simpa using hcheck, effectOf_events .., effectOf_responses .., answerOf_status ..⟩

theorem run_legal_of_init {ws : List CmdWord} (hws : ∀ v ∈ ws, ∃ i, decode v = .ok i) {rest : List HostEvent}
    {s : State} (hinit : s.init = true) (he : s.events = ws.map HostEvent.command ++ rest) :
    ∃ t rs, core.run ws.length s = .next t ∧ t.events = rest ∧ t.responses = s.responses ++ rs ∧
      rs.length = ws.length ∧ AllOk rs := by
  induction ws generalizing s with
  | nil => exact ⟨s, [], rfl, he, (List.append_nil _).symm, rfl, nofun⟩
  | cons w ws ih =>
    obtain ⟨i, hd⟩ := hws w (by simp)
    obtain ⟨u, r, hstep, hu, hevents, hresponse, hr⟩ := step_completes he hd (.inr hinit)
    obtain ⟨t, rs, hrun, ht, hresponses, hlen, hok⟩ := ih (fun v hv => hws v (List.mem_cons_of_mem w hv)) hu hevents
    exact ⟨t, r :: rs, (run_succ hstep _).trans hrun, ht, by simp [hresponses, hresponse], by simp [hlen],
      List.forall_mem_cons.mpr ⟨hr, hok⟩⟩

/-- Settles O51: NEW completes from every state and leaves an initialised core. -/
theorem legalWordsAfterNewAllComplete : Obligations.LegalWordsAfterNewAllComplete := by
  intro w seed ws rest s hnew hws he
  obtain ⟨u, r, hstep, hu, hevents, hresponse, hr⟩ := step_completes he hnew (.inl rfl)
  obtain ⟨t, rs, hrun, ht, hresponses, hlen, hok⟩ := run_legal_of_init hws hu hevents
  exact ⟨t, r :: rs, (run_succ hstep _).trans hrun, ht, by simp [hresponses, hresponse], by simp [hlen],
    List.forall_mem_cons.mpr ⟨hr, hok⟩⟩

/-! ## Words and commands (R60, R76) -/

theorem effectOf_withEvents (i : Instr) (s : State) (es : List HostEvent) :
    effectOf i { s with events := es } = { effectOf i s with events := es } := by
  cases i <;> rfl

/-- A command does not look at the events to come. -/
theorem exec_withEvents {i : Instr} {s t : State} (h : exec i s = .next t) (es : List HostEvent) :
    exec i { s with events := es } = .next { t with events := es } := by
  rw [exec_eq_perform] at h ⊢
  cases hcheck : failsInitCheck i s with
  | true =>
    rw [perform_fault _ hcheck] at h
    cases h
    exact perform_fault _ hcheck
  | false =>
    rw [perform_ok _ hcheck] at h
    cases h
    rw [← effectOf_withEvents]
    exact perform_ok _ hcheck

/-- Settles O54, by induction on the commands: each word decodes to its command, which runs alike whatever follows. -/
theorem steppingWordsPerformsTheCommands : Obligations.SteppingWordsPerformsTheCommands := by
  intro is rest
  induction is with
  | nil =>
    intro s he
    refine ⟨s, ?_, rfl⟩
    rw [execAll, ← show s.events = rest from he]
  | cons i is ih =>
    intro s he
    obtain ⟨u, hu⟩ := exec_total i { s with events := commandEvents is ++ rest }
    have hstep := (step_legal he (Encoding.decodeOfEncodeIsTheCommand i)).trans hu
    obtain ⟨t, hall, hrun⟩ := ih u (exec_frame hu).1
    exact ⟨t, (execAll_cons (exec_withEvents hu rest) is).trans hall, (run_succ hstep _).trans hrun⟩

/-! ## Two runs in lockstep -/

/-- A relation between two cores that every command keeps. -/
structure CommandsKeep (R : State → State → Prop) : Prop where
  init_eq : ∀ {s t}, R s t → s.init = t.init
  fault : ∀ {s t} f cw, R s t → R (raiseFault f cw s) (raiseFault f cw t)
  effect : ∀ {s t} i, R s t → isNew i = true ∨ s.init = true → R (effectOf i s) (effectOf i t)

theorem CommandsKeep.exec {R : State → State → Prop} (hR : CommandsKeep R) (i : Instr) {s t : State} (h : R s t) :
    ∃ s' t', exec i s = .next s' ∧ exec i t = .next t' ∧ R s' t' := by
  have hcheck : failsInitCheck i t = failsInitCheck i s := by rw [failsInitCheck, failsInitCheck, hR.init_eq h]
  simp only [exec_eq_perform]
  cases hs : failsInitCheck i s with
  | true => exact ⟨_, _, perform_fault _ hs, perform_fault _ (hcheck.trans hs), hR.fault _ _ h⟩
  | false =>
    refine ⟨_, _, perform_ok _ hs, perform_ok _ (hcheck.trans hs), hR.effect i h ?_⟩
    simpa [failsInitCheck, or_iff_not_imp_left] using hs

theorem CommandsKeep.execAll {R : State → State → Prop} (hR : CommandsKeep R) (is : List Instr) {s t : State}
    (h : R s t) : ∃ s' t', execAll is s = .next s' ∧ execAll is t = .next t' ∧ R s' t' := by
  induction is generalizing s t with
  | nil => exact ⟨s, t, rfl, rfl, h⟩
  | cons i is ih =>
    obtain ⟨u, v, hu, hv, huv⟩ := hR.exec i h
    rw [execAll_cons hu, execAll_cons hv]
    exact ih huv

/-- A relation between two cores with the same events that every event keeps. -/
structure EventsKeep (R : State → State → Prop) : Prop extends CommandsKeep R where
  events_eq : ∀ {s t}, R s t → s.events = t.events
  consume : ∀ {s t} es, R s t → R { s with events := es } { t with events := es }
  deliver : ∀ {s t}, R s t → R (deliverResponse s) (deliverResponse t)
  hardwareReset : ∀ {s t}, R s t → R (hardwareReset s) (hardwareReset t)

theorem EventsKeep.step {R : State → State → Prop} (hR : EventsKeep R) {s t : State} (h : R s t) :
    ∃ s' t', step s = .next s' ∧ step t = .next t' ∧ R s' t' := by
  have hevents := hR.events_eq h
  rcases hs : s.events with _ | ⟨⟨cw⟩ | _ | _, rest⟩
  all_goals have ht := hevents.symm.trans hs
  · exact ⟨s, t, step_idle hs, step_idle ht, h⟩
  · cases hd : decode cw with
    | error reason => exact ⟨_, _, step_illegal hs hd, step_illegal ht hd, hR.fault _ _ (hR.consume rest h)⟩
    | ok i =>
      rw [step_legal hs hd, step_legal ht hd]
      exact hR.exec i (hR.consume rest h)
  · exact ⟨_, _, step_takeResponse hs, step_takeResponse ht, hR.deliver (hR.consume rest h)⟩
  · exact ⟨_, _, step_hardwareReset hs, step_hardwareReset ht, hR.hardwareReset (hR.consume rest h)⟩

theorem EventsKeep.run {R : State → State → Prop} (hR : EventsKeep R) (k : Nat) {s t : State} (h : R s t) :
    ∃ s' t', core.run k s = .next s' ∧ core.run k t = .next t' ∧ R s' t' := by
  induction k generalizing s t with
  | zero => exact ⟨s, t, rfl, rfl, h⟩
  | succ k ih =>
    obtain ⟨u, v, hu, hv, huv⟩ := hR.step h
    rw [run_succ hu, run_succ hv]
    exact ih huv

/-! ## The host's side of the two runs -/

theorem sameChannels_consume {s t : State} (h : SameChannels s t) (es : List HostEvent) :
    SameChannels { s with events := es } { t with events := es } :=
  ⟨rfl, h.responses_eq, h.delivered_eq⟩

theorem sameChannels_raiseFault {s t : State} (h : SameChannels s t) (f : CommandFault) (cw : CmdWord) :
    SameChannels (raiseFault f cw s) (raiseFault f cw t) :=
  ⟨h.events_eq, congrArg (· ++ _) h.responses_eq, h.delivered_eq⟩

theorem sameChannels_deliverResponse {s t : State} (h : SameChannels s t) :
    SameChannels (deliverResponse s) (deliverResponse t) := by
  cases hs : s.responses with
  | nil => rwa [deliverResponse_nil hs, deliverResponse_nil (h.responses_eq.symm.trans hs)]
  | cons r rs =>
    rw [deliverResponse_cons hs, deliverResponse_cons (h.responses_eq.symm.trans hs)]
    exact ⟨h.events_eq, rfl, congrArg (· ++ [r]) h.delivered_eq⟩

theorem sameChannels_hardwareReset {s t : State} (h : SameChannels s t) :
    SameChannels (hardwareReset s) (hardwareReset t) :=
  ⟨h.events_eq, rfl, h.delivered_eq⟩

theorem sameChannels_effectOf {s t : State} (h : SameChannels s t) {i : Instr} (hanswer : answerOf i s = answerOf i t) :
    SameChannels (effectOf i s) (effectOf i t) := by
  constructor
  · rw [effectOf_events, effectOf_events, h.events_eq]
  · rw [effectOf_responses, effectOf_responses, h.responses_eq, hanswer]
  · rw [effectOf_delivered, effectOf_delivered, h.delivered_eq]

/-- Only FINISH answers with something it reads from the registers (R82). -/
theorem answerOf_congr {s t : State} (i : Instr) (h : finalHash s = finalHash t) : answerOf i s = answerOf i t := by
  cases i <;> simp [answerOf, h]

/-! ## The same registers -/

theorem finalHash_of_sameRegisters {s t : State} (h : SameRegisters s t) : finalHash s = finalHash t := by
  rw [finalHash, finalHash, h.hash_eq, h.len_eq, h.carry_eq]

theorem sameRegisters_effectOf {s t : State} (h : SameRegisters s t) (i : Instr) :
    SameRegisters (effectOf i s) (effectOf i t) := by
  obtain ⟨hhash, hlen, hcarry, hseed, hinit⟩ := h
  rcases instr_kinds i with ⟨seed, rfl⟩ | hwrite | rfl | rfl
  · exact ⟨rfl, rfl, rfl, rfl, rfl⟩
  · rw [effectOf_write hwrite, effectOf_write hwrite]
    constructor <;> simp [hhash, hlen, hcarry, hseed, hinit]
  · exact ⟨hhash, hlen, hcarry, hseed, hinit⟩
  · exact ⟨hseed, rfl, rfl, hseed, hinit⟩

theorem commandsKeep_sameRegisters : CommandsKeep SameRegisters where
  init_eq h := h.init_eq
  fault _ _ h := ⟨h.hash_eq, h.len_eq, h.carry_eq, h.seed_eq, h.init_eq⟩
  effect i h _ := sameRegisters_effectOf h i

/-! ### An empty write more (R166) -/

theorem execAll_keeps_clen (is : List Instr) {s : State} (hs : s.clen ≤ 3) :
    ∃ t, execAll is s = .next t ∧ t.clen ≤ 3 := by
  induction is generalizing s with
  | nil => exact ⟨s, rfl, hs⟩
  | cons i is ih =>
    obtain ⟨t, ht⟩ := exec_total i s
    rw [execAll_cons ht]
    rcases exec_cases ht with ⟨_, _, rfl⟩ | ⟨_, rfl⟩
    · exact ih hs
    · exact ih (effectOf_clen_le hs i)

/-- Settles O41: the empty write leaves the registers, and from the same registers commands lead to the same. -/
theorem emptyWritesAreNeutral : Obligations.EmptyWritesAreNeutral := by
  intro xs ys s hs
  obtain ⟨u, hu, hclen⟩ := execAll_keeps_clen xs hs
  obtain ⟨v, hv⟩ := exec_total .write0 u
  obtain ⟨_, _, _, hwrite0, _⟩ := commandFrames
  rw [execAll_append hu, execAll_append hu, execAll_cons hv]
  exact commandsKeep_sameRegisters.execAll ys (hwrite0 u v hv hclen)

/-! ## Unspecified registers (R201) -/

theorem eventsKeep_sameButUnspecified : EventsKeep SameButUnspecified where
  init_eq h := h.init_eq
  events_eq h := h.channels.events_eq
  consume es h := ⟨sameChannels_consume h.channels es, h.init_eq, fun hinit =>
    have hsame := h.registers hinit
    ⟨hsame.hash_eq, hsame.len_eq, hsame.carry_eq, hsame.seed_eq, hsame.init_eq⟩⟩
  fault f cw h := ⟨sameChannels_raiseFault h.channels f cw, h.init_eq, fun hinit =>
    commandsKeep_sameRegisters.fault f cw (h.registers hinit)⟩
  deliver h := ⟨sameChannels_deliverResponse h.channels, by simpa using h.init_eq, fun hinit =>
    have hsame := h.registers (by simpa using hinit)
    by constructor <;> simp [hsame.hash_eq, hsame.len_eq, hsame.carry_eq, hsame.seed_eq, hsame.init_eq]⟩
  hardwareReset h := ⟨sameChannels_hardwareReset h.channels, rfl, nofun⟩
  effect i h hcheck := by
    rcases hcheck with hnew | hinit
    · obtain ⟨seed, rfl⟩ : ∃ seed, i = .new seed := by cases i <;> simp_all [isNew]
      exact ⟨sameChannels_effectOf h.channels rfl, rfl, fun _ => ⟨rfl, rfl, rfl, rfl, rfl⟩⟩
    · have hsame := h.registers hinit
      have hafter := sameRegisters_effectOf hsame i
      exact ⟨sameChannels_effectOf h.channels (answerOf_congr i (finalHash_of_sameRegisters hsame)), hafter.init_eq,
        fun _ => hafter⟩

/-- Settles O52: a command that reads a register has passed the `init` check. -/
theorem unspecifiedRegistersAreNeverSeen : Obligations.UnspecifiedRegistersAreNeverSeen :=
  fun k _ _ => eventsKeep_sameButUnspecified.run k

/-! ## The high half of the length (R35) -/

theorem truncate_add_congr {x y : DWord} (h : x.truncate 32 = y.truncate 32) (n : DWord) :
    (x + n).truncate 32 = (y + n).truncate 32 := by
  simp only [BitVec.truncate_eq_setWidth] at h ⊢
  rw [BitVec.setWidth_add _ _ (by decide), h, BitVec.setWidth_add _ _ (by decide)]

theorem eventsKeep_sameButLenHigh : EventsKeep SameButLenHigh where
  init_eq h := h.init_eq
  events_eq h := h.channels.events_eq
  consume es h := ⟨sameChannels_consume h.channels es, h.hash_eq, h.carry_eq, h.seed_eq, h.init_eq, h.len_low_eq,
    h.resets_eq⟩
  fault f cw h := ⟨sameChannels_raiseFault h.channels f cw, h.hash_eq, h.carry_eq, h.seed_eq, h.init_eq, h.len_low_eq,
    h.resets_eq⟩
  deliver h := by
    obtain ⟨hchannels, hhash, hcarry, hseed, hinit, hlen, hresets⟩ := h
    refine ⟨sameChannels_deliverResponse hchannels, ?_, ?_, ?_, ?_, ?_, ?_⟩ <;> simpa
  hardwareReset h := by
    refine ⟨sameChannels_hardwareReset h.channels, ?_, ?_, ?_, rfl, ?_, ?_⟩ <;> simp [h.resets_eq]
  effect {s t} i h _ := by
    have hfinal : finalHash s = finalHash t := by
      rw [finalHash, finalHash, h.hash_eq, h.carry_eq, finalize32_congr_len h.len_low_eq]
    have hchannels := sameChannels_effectOf h.channels (answerOf_congr i hfinal)
    obtain ⟨_, hhash, hcarry, hseed, hinit, hlen, hresets⟩ := h
    rcases instr_kinds i with ⟨seed, rfl⟩ | hwrite | rfl | rfl
    · exact ⟨hchannels, rfl, rfl, rfl, rfl, rfl, hresets⟩
    · rw [effectOf_write hwrite, effectOf_write hwrite] at *
      refine ⟨hchannels, ?_, ?_, hseed, hinit, ?_, hresets⟩
      · simp [hhash, hcarry]
      · simp [hcarry]
      · exact truncate_add_congr hlen _
    · exact ⟨hchannels, hhash, hcarry, hseed, hinit, hlen, hresets⟩
    · exact ⟨hchannels, hseed, rfl, hseed, hinit, rfl, hresets⟩

/-- Settles O53: the low half of a sum comes from the low halves, and FINISH reads no more of the length. -/
theorem highHalfOfLengthIsNeverSeen : Obligations.HighHalfOfLengthIsNeverSeen :=
  fun k _ _ => eventsKeep_sameButLenHigh.run k

end Sys2Proof.Runs
end
